-- ==== Sys2Proof/Word.lean ====
section
/-! DEFINITION. The values the ports carry (00_scope.md R11, R14): bits, bytes, sequences of them, command words and
256-bit chaining values. Numbers are plain naturals (R11, D13) and need no type of their own. -/

namespace Sys2Proof

/-- A bit sequence; index 0 is its first bit (R11, R14). -/
abbrev Bits := List Bool

/-- A byte, `0..255` (R11). -/
abbrev Byte := BitVec 8

/-- A byte sequence. -/
abbrev Bytes := List Byte

/-- A block sequence: block `i` is element `i` (R11). -/
abbrev Blocks := List Bits

/-- A 32-bit word of a chaining value (R75). -/
abbrev Word := BitVec 32

/-- A command word, the value of port `CMD` (R43). -/
abbrev CmdWord := BitVec 16

/-- A 256-bit chaining value, as the eight words `H.0 … H.7` (R35, R75). -/
structure Word256 where
  h0 : Word
  h1 : Word
  h2 : Word
  h3 : Word
  h4 : Word
  h5 : Word
  h6 : Word
  h7 : Word
deriving DecidableEq, Repr, Inhabited

/-- The words `H.0, …, H.7` in order. -/
def Word256.words (h : Word256) : List Word := [h.h0, h.h1, h.h2, h.h3, h.h4, h.h5, h.h6, h.h7]

end Sys2Proof
end

