-- ==== Sys2Proof/Machine/Seq.lean ====
section
/-! DEFINITION. The sequence and number primitives of 00_scope.md R12, and the bit order inside a byte (20_memory.md
R31), inside a length suffix (R32) and between a sequence and its chunks (R33). -/

namespace Sys2Proof.Machine

/-- `bit_k(v)`: bit `k` of the natural `v`, bit 0 the least significant (R12). -/
def bitOf (k v : Nat) : Bool := v / 2 ^ k % 2 == 1

/-- `v[hi:lo]` (R12). -/
def natField (hi lo v : Nat) : Nat := v / 2 ^ lo % 2 ^ (hi - lo + 1)

/-- `zext_N(v)`: defined only when `v < 2^N` (R12). -/
def zext? (w v : Nat) : Option (BitVec w) := if v < 2 ^ w then some (BitVec.ofNat w v) else none

/-- `zeros(n)` (R12). -/
def zeros (n : Nat) : Bits := List.replicate n false

/-- `s[a..b)` (R12). -/
def slice (a b : Nat) (s : Bits) : Bits := (s.drop a).take (b - a)

/-- `concat(B)` (R12). -/
def concat (b : Blocks) : Bits := b.flatten

/-- `be_N(v)`: the `N`-bit big-endian bits of `v` (R12). -/
def be (w v : Nat) : Bits := (List.range w).map fun i => bitOf (w - 1 - i) v

/-- The natural whose big-endian bits are `s` (R34, R57). -/
def natOfBits (s : Bits) : Nat := s.foldl (fun acc b => 2 * acc + b.toNat) 0

/-- The eight bits of a byte, most significant first (R31). -/
def byteBits (b : Byte) : Bits := (List.range 8).map fun j => bitOf (7 - j) b.toNat

/-- The first `count` consecutive chunks of `w` bits: `B[i][j] = s[w*i + j]` (R33). -/
def chunks (w count : Nat) (s : Bits) : Blocks := (List.range count).map fun i => slice (w * i) (w * i + w) s

/-- How many bits a block sequence holds in all. -/
def totalBits (b : Blocks) : Nat := (b.map List.length).sum

end Sys2Proof.Machine
end

