-- ==== Sys2Proof/Machine/Sha256.lean ====
section
/-! DEFINITION. The standard SHA-256 initial value and compression function, as 93_implementation_defined.md section 2
gives them for instantiating the parameters `IV` and `Compress` (R9, R75, D16). PRESUMED (log entry 2): the spec marks them
[from general knowledge, not in source]. -/

namespace Sys2Proof.Machine.Sha256

/-- The standard `IV` (93 section 2.1, G1). -/
def iv : Word256 :=
  ⟨0x6a09e667#32, 0xbb67ae85#32, 0x3c6ef372#32, 0xa54ff53a#32, 0x510e527f#32, 0x9b05688c#32, 0x1f83d9ab#32, 0x5be0cd19#32⟩

/-- The standard round constants `K[0..63]` (93 section 2.2, G2). -/
def k : List Word :=
  [0x428a2f98#32, 0x71374491#32, 0xb5c0fbcf#32, 0xe9b5dba5#32, 0x3956c25b#32, 0x59f111f1#32, 0x923f82a4#32, 0xab1c5ed5#32] ++
  [0xd807aa98#32, 0x12835b01#32, 0x243185be#32, 0x550c7dc3#32, 0x72be5d74#32, 0x80deb1fe#32, 0x9bdc06a7#32, 0xc19bf174#32] ++
  [0xe49b69c1#32, 0xefbe4786#32, 0x0fc19dc6#32, 0x240ca1cc#32, 0x2de92c6f#32, 0x4a7484aa#32, 0x5cb0a9dc#32, 0x76f988da#32] ++
  [0x983e5152#32, 0xa831c66d#32, 0xb00327c8#32, 0xbf597fc7#32, 0xc6e00bf3#32, 0xd5a79147#32, 0x06ca6351#32, 0x14292967#32] ++
  [0x27b70a85#32, 0x2e1b2138#32, 0x4d2c6dfc#32, 0x53380d13#32, 0x650a7354#32, 0x766a0abb#32, 0x81c2c92e#32, 0x92722c85#32] ++
  [0xa2bfe8a1#32, 0xa81a664b#32, 0xc24b8b70#32, 0xc76c51a3#32, 0xd192e819#32, 0xd6990624#32, 0xf40e3585#32, 0x106aa070#32] ++
  [0x19a4c116#32, 0x1e376c08#32, 0x2748774c#32, 0x34b0bcb5#32, 0x391c0cb3#32, 0x4ed8aa4a#32, 0x5b9cca4f#32, 0x682e6ff3#32] ++
  [0x748f82ee#32, 0x78a5636f#32, 0x84c87814#32, 0x8cc70208#32, 0x90befffa#32, 0xa4506ceb#32, 0xbef9a3f7#32, 0xc67178f2#32]

def ch (x y z : Word) : Word := (x &&& y) ^^^ (~~~x &&& z)

def maj (x y z : Word) : Word := (x &&& y) ^^^ (x &&& z) ^^^ (y &&& z)

/-- `S0` of 93 section 2.3. -/
def bigSigma0 (x : Word) : Word := x.rotateRight 2 ^^^ x.rotateRight 13 ^^^ x.rotateRight 22

/-- `S1` of 93 section 2.3. -/
def bigSigma1 (x : Word) : Word := x.rotateRight 6 ^^^ x.rotateRight 11 ^^^ x.rotateRight 25

/-- `s0` of 93 section 2.3. -/
def smallSigma0 (x : Word) : Word := x.rotateRight 7 ^^^ x.rotateRight 18 ^^^ x >>> 3

/-- `s1` of 93 section 2.3. -/
def smallSigma1 (x : Word) : Word := x.rotateRight 17 ^^^ x.rotateRight 19 ^^^ x >>> 10

/-- Word `t` of a block: the natural whose big-endian bits are `B[32t .. 32t+32)` (R34, G3). -/
def blockWord (b : Bits) (t : Nat) : Word := BitVec.ofNat 32 (natOfBits (slice (32 * t) (32 * t + 32) b))

/-- `W[0..15]`, latest word first. -/
def firstWords (b : Bits) : List Word := ((List.range 16).map (blockWord b)).reverse

/-- One more word in front: `W[t] = s1(W[t-2]) + W[t-7] + s0(W[t-15]) + W[t-16]`, where `W[t-d]` stands at index `d - 1`. -/
def extendWords (ws : List Word) : List Word :=
  (smallSigma1 (ws.getD 1 0) + ws.getD 6 0 + smallSigma0 (ws.getD 14 0) + ws.getD 15 0) :: ws

/-- `n` more words in front. -/
def extendMany : Nat → List Word → List Word
  | 0, ws => ws
  | n + 1, ws => extendMany n (extendWords ws)

/-- The message schedule `W[0..63]`. -/
def schedule (b : Bits) : List Word := (extendMany 48 (firstWords b)).reverse

/-- One round, with `K[t]` and `W[t]`. The registers `a … h` stand in `h0 … h7`. -/
def round (r : Word256) (kw : Word × Word) : Word256 :=
  let t1 := r.h7 + bigSigma1 r.h4 + ch r.h4 r.h5 r.h6 + kw.1 + kw.2
  let t2 := bigSigma0 r.h0 + maj r.h0 r.h1 r.h2
  ⟨t1 + t2, r.h0, r.h1, r.h2, r.h3 + t1, r.h4, r.h5, r.h6⟩

/-- Word by word addition modulo `2^32`. -/
def addWords (x y : Word256) : Word256 :=
  ⟨x.h0 + y.h0, x.h1 + y.h1, x.h2 + y.h2, x.h3 + y.h3, x.h4 + y.h4, x.h5 + y.h5, x.h6 + y.h6, x.h7 + y.h7⟩

/-- The standard `Compress` (93 section 2.3, G2). -/
def compress (h : Word256) (b : Bits) : Word256 := addWords h ((k.zip (schedule b)).foldl round h)

end Sys2Proof.Machine.Sha256
end

