-- ==== Sys2Proof/Config.lean ====
section
/-! DEFINITION. What an instance is built with (00_scope.md R7, R9, R10; 10_state.md R21): the capacity, the compression
primitive and the physical port widths. -/

namespace Sys2Proof

/-- Compression functions other than the standard one, one for each index; nothing is known of any of them beyond
totality and purity (R9, R75, U15). A statement about every instance holds whatever they are. Log entry 1. -/
opaque Config.externalCompress : Nat → Word256 → Bits → Word256

/-- The parameter `Compress` (R9, R21): the standard function of 93_implementation_defined.md section 2, or any other. -/
inductive Compressor
  | standard
  | external (index : Nat)
deriving DecidableEq, Repr

/-- How an instance's capacity is given (R7, R71): `C` itself, or a block-space exponent `BS`, for `C = 2^BS`. -/
inductive CapacitySpec
  | blocks (c : Nat)
  | blockSpace (bs : Nat)
deriving DecidableEq, Repr

/-- What a builder asks for (R103); nothing checked yet. `lenWidth` and `busBits` are the OPEN parameters `LEN_WIDTH`
and `BUS_BITS` (R10, D13, D14); `none` is the unbounded port of the spec's model. -/
structure Build where
  capacity : CapacitySpec
  iv : Word256
  compress : Compressor
  lenWidth : Option Nat := none
  busBits : Option Nat := none
deriving DecidableEq, Repr

/-- `BUS_BITS` is at least `512*C` (R10, D14). -/
def busHolds (capacity : Nat) : Option Nat → Bool
  | none => true
  | some b => 512 * capacity ≤ b

/-- The elaboration-time parameters of an instance (R21). An instance with `C = 0` does not exist. -/
structure Instance where
  capacity : Nat
  capacity_pos : 1 ≤ capacity
  iv : Word256
  compress : Compressor
  lenWidth : Option Nat
  busBits : Option Nat
  bus_holds : busHolds capacity busBits = true
deriving DecidableEq, Repr

/-- An instance with the standard `IV` and `Compress` and unbounded ports. -/
def Config.standardInstance (c : Nat) (h : 1 ≤ c) : Instance :=
  ⟨c, h, Machine.Sha256.iv, .standard, none, none, rfl⟩

/-- The instance `State.reset` is built with. DESIGN CHOICE (log entry 3): the spec fixes no instance; this is the one of
its programs P1, P3 and P4, `C = 2` with the standard `IV` and `Compress`. -/
def Config.resetInstance : Instance := Config.standardInstance 2 (by decide)

end Sys2Proof
end

