-- ==== Sys2Proof/Syntax.lean ====
section
/-! DEFINITION. The eleven operations (30_encoding.md R45), the ports (10_state.md R22, R24), the transactions a host
presents and its list of them (R52, R101, R107), and the textual syntax (R52, R53) as terms. -/

namespace Sys2Proof

/-- The operations of the command set, one constructor per row of `opcode_table.json` (R45). A command word has no
register fields and no immediates, so no constructor carries an operand (R43, R48). -/
inductive Instr
  | bytesToBits
  | bitsToBytes
  | pad
  | segment
  | fit
  | tblock
  | capacity
  | maxlen
  | digest
  | format
  | hash
deriving DecidableEq, Repr

/-- The eleven operations in the table's order. -/
def Instr.all : List Instr :=
  [.bytesToBits, .bitsToBytes, .pad, .segment, .fit, .tblock, .capacity, .maxlen, .digest, .format, .hash]

/-- Why a command word is no operation: `CMD[15:4] ≠ 0` (R46), or an unassigned `OP` code (R47). -/
inductive DecodeError
  | reservedBits
  | reservedCode
deriving DecidableEq, Repr

/-- The operand input ports (R22), `CMD` apart. -/
inductive InPort
  | aBits
  | aBytes
  | aBlocks
  | n
  | m
deriving DecidableEq, Repr

/-- The operand input ports in the order of R22. -/
def InPort.all : List InPort := [.aBits, .aBytes, .aBlocks, .n, .m]

/-- The result ports (R24). -/
inductive ResultPort
  | rBits
  | rBytes
  | rBlocks
  | rNum
  | rTblock
  | rDigest
deriving DecidableEq, Repr

/-- The result ports in the order of R24. -/
def ResultPort.all : List ResultPort := [.rBits, .rBytes, .rBlocks, .rNum, .rTblock, .rDigest]

/-- What the host puts on `A_BITS`: a value, or the copy `$R_BITS` or `$R_DIGEST` of the previous transaction's result
(R52). -/
inductive BitsArg
  | value (s : Bits)
  | rBits
  | rDigest
deriving DecidableEq, Repr

/-- What the host puts on `A_BYTES`: a value or the copy `$R_BYTES` (R52). -/
inductive BytesArg
  | value (b : Bytes)
  | rBytes
deriving DecidableEq, Repr

/-- What the host puts on `A_BLOCKS`: a value or the copy `$R_BLOCKS` (R52). -/
inductive BlocksArg
  | value (b : Blocks)
  | rBlocks
deriving DecidableEq, Repr

/-- What the host puts on `N` or `M`: a number, or the copy `$R_NUM` or `$R_TBLOCK` (R52). -/
inductive NumArg
  | value (v : Nat)
  | rNum
  | rTblock
deriving DecidableEq, Repr

/-- A transaction as the host presents it (R22, R43, R101): one command word and, for each operand port, what the host
puts on it; `none` is a port the host does not drive, which an operation that does not read it ignores (R50). -/
structure Transaction where
  cmd : CmdWord
  aBits : Option BitsArg := none
  aBytes : Option BytesArg := none
  aBlocks : Option BlocksArg := none
  n : Option NumArg := none
  m : Option NumArg := none
deriving DecidableEq, Repr

/-- What the host does next: present a transaction and hold it until it ends (R101), or assert the reset input, which
ends any transaction in progress (R102). An instance without a reset input never meets the second. -/
inductive HostEvent
  | run (t : Transaction)
  | reset
deriving DecidableEq, Repr

/-- The sequence literals of the textual syntax (R52): `b"0110"`, `x"6162"`, `"abc"`, `zeros(n)`, `repeat("a", n)`. -/
inductive TextSeq
  | bin (bits : List Bool)
  | hex (bytes : Bytes)
  | ascii (text : List Char)
  | zeros (n : Nat)
  | rep (text : List Char) (n : Nat)
deriving DecidableEq, Repr

/-- The value forms of the textual syntax (R52): a number, a sequence, a list of blocks, or `$R_…`. R52 does not say what the
elements of a list may be; DESIGN CHOICE (log entry 13): sequence literals, and not `$R_…`, whose copy is a whole port. -/
inductive TextValue
  | num (v : Nat)
  | seq (q : TextSeq)
  | list (qs : List TextSeq)
  | result (r : ResultPort)
deriving DecidableEq, Repr

/-- What a textual transaction begins with: a mnemonic, or the command word itself, written `CMD=0x000A` (R52). -/
inductive TextHead
  | op (mnemonic : String)
  | cmd (w : CmdWord)
deriving DecidableEq, Repr

/-- A textual transaction: `<mnemonic> [<port>=<value> {, <port>=<value>}]` (R52). -/
structure TextTransaction where
  head : TextHead
  args : List (String × TextValue)
deriving DecidableEq, Repr

/-- Why an assembler refuses a textual transaction (R52, R55). -/
inductive AsmError
  | unknownMnemonic (name : String)
  | notInputPort (name : String)
  | portTwice (p : InPort)
  | badValue (p : InPort)
  | badPseudo (name : String)
  | badText
deriving DecidableEq, Repr

/-- The host's pseudo-operations (R53). -/
inductive Pseudo
  | sha256 (m : Bytes)
  | padseg (s : Bits) (len : Nat)
deriving DecidableEq, Repr

/-- A transaction as raw port slots, before its boundary check (R23): bit slots, byte slots and the command word are
naturals that may lie outside their range. -/
structure RawTransaction where
  cmd : Nat
  aBits : Option (List Nat) := none
  aBytes : Option (List Nat) := none
  aBlocks : Option (List (List Nat)) := none
  n : Option Nat := none
  m : Option Nat := none
deriving DecidableEq, Repr

end Sys2Proof
end

