-- ==== Sys2Proof/WellFormed.lean ====
section
/-! DEFINITION. The checks on terms: instructions, textual transactions (30_encoding.md R52, R55), raw port slots
(10_state.md R23, D27) and builds (R21, D10, D14). -/

namespace Sys2Proof

/-- A command word carries its operation alone (R43, R48), so an instruction has nothing that could be ill formed. -/
def Instr.wf : Instr → Bool
  | .bytesToBits => true
  | .bitsToBytes => true
  | .pad => true
  | .segment => true
  | .fit => true
  | .tblock => true
  | .capacity => true
  | .maxlen => true
  | .digest => true
  | .format => true
  | .hash => true

/-- The mnemonic of the opcode table (R45). -/
def Instr.mnemonic : Instr → String
  | .bytesToBits => "BYTES_TO_BITS"
  | .bitsToBytes => "BITS_TO_BYTES"
  | .pad => "PAD"
  | .segment => "SEGMENT"
  | .fit => "FIT"
  | .tblock => "TBLOCK"
  | .capacity => "CAPACITY"
  | .maxlen => "MAXLEN"
  | .digest => "DIGEST"
  | .format => "FORMAT"
  | .hash => "HASH"

/-- A port's name in the textual syntax (R22, R52). -/
def InPort.name : InPort → String
  | .aBits => "A_BITS"
  | .aBytes => "A_BYTES"
  | .aBlocks => "A_BLOCKS"
  | .n => "N"
  | .m => "M"

/-- Mnemonics are case-sensitive as written (R55). -/
def Instr.ofMnemonic? (name : String) : Option Instr := Instr.all.find? fun i => i.mnemonic == name

/-- Port names are case-sensitive as written (R55). -/
def InPort.ofName? (name : String) : Option InPort := InPort.all.find? fun p => p.name == name

/-- ASCII codes end at 127. -/
def isAscii (text : List Char) : Bool := text.all fun c => decide (c.toNat < 128)

/-- A literal that gives a bit sequence (R52). -/
def TextSeq.givesBits : TextSeq → Bool
  | .bin _ => true
  | .hex _ => true
  | .ascii t => isAscii t
  | .zeros _ => true
  | .rep t _ => isAscii t

/-- A literal that gives a byte sequence (R52). -/
def TextSeq.givesBytes : TextSeq → Bool
  | .bin _ => false
  | .hex _ => true
  | .ascii t => isAscii t
  | .zeros _ => false
  | .rep t _ => isAscii t

/-- The value forms each port takes (R52). DESIGN CHOICE (log entry 13): of the copies, which R52 types `any`, a port takes
those of its own type; and the elements of a block list are literals. -/
def TextValue.suits : InPort → TextValue → Bool
  | .aBits, .seq q => q.givesBits
  | .aBits, .result r => r == .rBits || r == .rDigest
  | .aBytes, .seq q => q.givesBytes
  | .aBytes, .result r => r == .rBytes
  | .aBlocks, .list qs => qs.all TextSeq.givesBits
  | .aBlocks, .result r => r == .rBlocks
  | .n, .num _ => true
  | .n, .result r => r == .rNum || r == .rTblock
  | .m, .num _ => true
  | .m, .result r => r == .rNum || r == .rTblock
  | _, _ => false

/-- A transaction begins with a known mnemonic or a command word. -/
def TextHead.known : TextHead → Bool
  | .op name => (Instr.ofMnemonic? name).isSome
  | .cmd _ => true

/-- An argument names an input port and gives it a value of a form it takes. -/
def argSuits (a : String × TextValue) : Bool :=
  match InPort.ofName? a.1 with
  | some p => a.2.suits p
  | none => false

/-- A valid textual transaction: a known mnemonic, input ports only, none named twice, each with a fitting value (R52,
R55). -/
def TextTransaction.wf (t : TextTransaction) : Bool :=
  t.head.known && t.args.all argSuits && decide (t.args.map Prod.fst).Nodup

/-- A bit slot holds 0 or 1 (R23). -/
def bitSlot (v : Nat) : Bool := decide (v ≤ 1)

/-- A byte slot holds `0..255` (R23). -/
def byteSlot (v : Nat) : Bool := decide (v ≤ 255)

/-- Every slot of a raw transaction lies in its range (R22, R23). -/
def RawTransaction.wf (t : RawTransaction) : Bool :=
  decide (t.cmd < 2 ^ 16) && (t.aBits.getD []).all bitSlot && (t.aBytes.getD []).all byteSlot &&
    (t.aBlocks.getD []).all fun b => b.all bitSlot

/-- The capacity a builder asks for (R7, R71). -/
def CapacitySpec.value : CapacitySpec → Nat
  | .blocks c => c
  | .blockSpace bs => 2 ^ bs

/-- A build gives an instance only when `C ≥ 1` and the sequence ports hold `512*C` bits (R21, D10, D14). -/
def Build.wf (b : Build) : Bool := decide (1 ≤ b.capacity.value) && busHolds b.capacity.value b.busBits

end Sys2Proof
end

