-- ==== Sys2Proof/Decode.lean ====
section
/-! DEFINITION. The command word (30_encoding.md R43 to R47, R51): decoder and encoder, and the host's reading of a table
word. -/

namespace Sys2Proof

/-- `CMD[3:0]`, the field `OP` (R43). -/
def fieldOp (w : CmdWord) : BitVec 4 := w.extractLsb' 0 4

/-- `CMD[15:4]`, the field `RSV` (R43). -/
def fieldRsv (w : CmdWord) : BitVec 12 := w.extractLsb' 4 12

/-- The operation map (R45); the other five codes are reserved (R47). -/
def decodeOp (op : BitVec 4) : Except DecodeError Instr :=
  match op.toNat with
  | 0x1 => .ok .bytesToBits
  | 0x2 => .ok .bitsToBytes
  | 0x3 => .ok .pad
  | 0x4 => .ok .segment
  | 0x5 => .ok .fit
  | 0x6 => .ok .tblock
  | 0x7 => .ok .capacity
  | 0x8 => .ok .maxlen
  | 0x9 => .ok .digest
  | 0xA => .ok .format
  | 0xB => .ok .hash
  | _ => .error .reservedCode

/-- Total decoding of a command word: the reserved bits are checked whatever `OP` is (R44, R46). -/
def decode (w : CmdWord) : Except DecodeError Instr :=
  if fieldRsv w ≠ 0#12 then .error .reservedBits else decodeOp (fieldOp w)

/-- The operation code of each operation (R45). -/
def opcode : Instr → BitVec 4
  | .bytesToBits => 0x1#4
  | .bitsToBytes => 0x2#4
  | .pad => 0x3#4
  | .segment => 0x4#4
  | .fit => 0x5#4
  | .tblock => 0x6#4
  | .capacity => 0x7#4
  | .maxlen => 0x8#4
  | .digest => 0x9#4
  | .format => 0xA#4
  | .hash => 0xB#4

/-- The command word of an operation: its code below twelve zero bits (R43, R54). -/
def encode (i : Instr) : CmdWord := 0#12 ++ opcode i

/-- A command word is one 16-bit value on a port (R43): no bytes, no byte order. A table word longer than 16 bits, or with a
bit set above `nbits`, is none. -/
def decodeTableWord (nbits w : Nat) : Option Instr :=
  if nbits ≤ 16 ∧ w < 2 ^ nbits then (decode (BitVec.ofNat 16 w)).toOption else none

end Sys2Proof
end

