-- ==== Sys2Proof/Machine/State.lean ====
section
/-! DEFINITION. What the machine holds between steps (10_state.md): the instance's parameters (R21), the input ports (R22),
the output ports (R24) and the host's list of things to do (R52, R107). The block has no register, no program counter and
no memory (R18, R28). -/

namespace Sys2Proof.Machine

/-- The outcomes a transaction reports on `STATUS` (R86). Their 3-bit codes are `Status.code`. -/
inductive Status
  | ok
  | alignment
  | capacityExceeded
  | lengthOverflow
  | precondition
  | reservedEncoding
deriving DecidableEq, Repr

/-- Every output port (R24): `STATUS`, the result ports and the error-context ports. -/
inductive OutPort
  | status
  | result (r : ResultPort)
  | errLen
  | errReq
  | errAvail
deriving DecidableEq, Repr

/-- The output ports (R24); `none` is a port that holds no value (R25). -/
structure Outputs where
  /-- `STATUS`, a 3-bit code (R86). -/
  status : Option (BitVec 3)
  /-- `R_BITS`. -/
  rBits : Option Bits
  /-- `R_BYTES`. -/
  rBytes : Option Bytes
  /-- `R_BLOCKS`. -/
  rBlocks : Option Blocks
  /-- `R_NUM`. -/
  rNum : Option Nat
  /-- `R_TBLOCK`. -/
  rTblock : Option Nat
  /-- `R_DIGEST`, 256 bits. -/
  rDigest : Option Bits
  /-- `ERR_LEN`. -/
  errLen : Option Nat
  /-- `ERR_REQ`. -/
  errReq : Option Nat
  /-- `ERR_AVAIL`. -/
  errAvail : Option Nat
deriving DecidableEq, Repr

/-- Every output port without a value: before the first transaction, and after reset (R25, R27, R102). -/
def Outputs.noValue : Outputs := ⟨none, none, none, none, none, none, none, none, none, none⟩

/-- The machine. -/
structure State where
  /-- The elaboration-time parameters (R21); no step changes them. -/
  inst : Instance
  /-- Port `CMD`, as last driven by the host (R22). -/
  cmd : Option CmdWord
  /-- Port `A_BITS`. -/
  aBits : Option Bits
  /-- Port `A_BYTES`. -/
  aBytes : Option Bytes
  /-- Port `A_BLOCKS`. -/
  aBlocks : Option Blocks
  /-- Port `N`. -/
  n : Option Nat
  /-- Port `M`. -/
  m : Option Nat
  /-- The output ports. -/
  out : Outputs
  /-- What the host will do, in order: its program (R52, R107), and reset (R102). -/
  host : List HostEvent
deriving DecidableEq, Repr

/-- The state with other values on its output ports. -/
def State.setOut (s : State) (o : Outputs) : State := { s with out := o }

/-- The state with other things for the host to do. -/
def State.setHost (s : State) (h : List HostEvent) : State := { s with host := h }

/-- Why the machine stops with a fault: the host has a port read that holds no value. -/
inductive Fault
  /-- The host copies the result port `r` (`$R_…`, R52) while it holds no value: "reading it faults" (R25, U1, U2, U4).
  Raised by `present`. Safe. -/
  | resultAbsent (r : ResultPort)
  /-- An output port is read while it holds no value (R25, U1 to U4). Raised by `readOut`, a host's reading outside any
  step. Safe. -/
  | outputAbsent (p : OutPort)
  /-- An operation reads the operand port `p`, which the host does not drive, against its duty (R101). DESIGN CHOICE (log
  entry 4). Raised by the operand readers of `Operands.lean`. Safe. -/
  | operandAbsent (p : InPort)
deriving DecidableEq, Repr

/-- Why there is no run for a transaction. -/
inductive Refusal
  /-- The instruction has no meaning yet; raised by `exec`'s arm alone. Safe. -/
  | notModelled (mnemonic : String)
  /-- An operand the operation reads does not fit the instance's physical port `p` (D13, D14, U12). Raised by `transact`.
  Safe. -/
  | operandTooWide (p : InPort)
  /-- A result does not fit the instance's physical ports (D14, U12). Raised by `transact`. Safe. -/
  | resultTooWide
  /-- A bit slot of port `p` holds neither 0 nor 1 (R23, D27, U11). Raised by `admitRaw`, at the boundary. Unsafe only as D27
  says: a real circuit might give such a slot a meaning. -/
  | slotNotBinary (p : InPort)
  /-- A byte slot holds more than 255 (R23, D27, U11). Raised by `admitRaw`. As `slotNotBinary`. -/
  | byteOutOfRange
  /-- A raw command word has more than 16 bits (R43). Raised by `admitRaw`. Safe. -/
  | commandTooWide
  /-- A builder asks for an instance with `C = 0` (R21, D10). Raised by `elaborate`. Safe. -/
  | noCapacity
  /-- A builder asks for sequence ports narrower than `512*C` bits (R10, D14). Raised by `elaborate`. Safe. -/
  | busTooNarrow
deriving DecidableEq, Repr

/-- What a step, or an operation, answers. -/
abbrev Result := Host.Outcome State Fault Refusal

/-- The machine right after reset, for an instance (R27, R102): no output port holds a value, the input ports have none of
the block's own, and the host has nothing to do yet. -/
def State.resetOf (p : Instance) : State :=
  ⟨p, none, none, none, none, none, none, Outputs.noValue, []⟩

/-- The machine right after reset, for the instance of log entry 3. -/
def State.reset : State := State.resetOf Config.resetInstance

end Sys2Proof.Machine
end

