-- ==== Sys2Proof/Machine/Flags.lean ====
section
/-! DEFINITION. The `STATUS` codes (60_exceptions.md R86), which operation can report which (R93), and which result ports
an operation writes (30_encoding.md R49). -/

namespace Sys2Proof.Machine

/-- The 3-bit code on `STATUS` (R86). -/
def Status.code : Status → BitVec 3
  | .ok => 0#3
  | .alignment => 1#3
  | .capacityExceeded => 2#3
  | .lengthOverflow => 3#3
  | .precondition => 4#3
  | .reservedEncoding => 5#3

/-- The statuses in code order. -/
def Status.all : List Status :=
  [.ok, .alignment, .capacityExceeded, .lengthOverflow, .precondition, .reservedEncoding]

/-- The status of a code; codes 6 and 7 are never produced (R86, U7). -/
def Status.ofCode? (c : BitVec 3) : Option Status := Status.all.find? fun s => s.code == c

/-- The table of R93: which statuses an operation can report. -/
def mayReport : Instr → Status → Bool
  | .bytesToBits, s => s == .ok
  | .bitsToBytes, s => s == .ok || s == .alignment
  | .pad, s => s == .ok || s == .lengthOverflow || s == .precondition
  | .segment, s => s == .ok || s == .alignment || s == .precondition
  | .fit, s => s == .ok || s == .capacityExceeded || s == .precondition
  | .tblock, s => s == .ok
  | .capacity, s => s == .ok
  | .maxlen, s => s == .ok || s == .precondition
  | .digest, s => s == .ok || s == .precondition
  | .format, s => s == .ok || s == .capacityExceeded || s == .lengthOverflow || s == .precondition
  | .hash, s => s == .ok || s == .capacityExceeded || s == .lengthOverflow || s == .precondition

/-- The result ports an operation writes when it succeeds (R49, last column). -/
def writesPort : Instr → ResultPort → Bool
  | .bytesToBits, r => r == .rBits
  | .bitsToBytes, r => r == .rBytes
  | .pad, r => r == .rBits
  | .segment, r => r == .rBlocks
  | .fit, r => r == .rBlocks
  | .tblock, r => r == .rNum
  | .capacity, r => r == .rNum
  | .maxlen, r => r == .rNum
  | .digest, r => r == .rDigest
  | .format, r => r == .rBlocks || r == .rTblock
  | .hash, r => r == .rDigest || r == .rTblock

end Sys2Proof.Machine
end

