-- ==== Sys2Proof/Machine/Ops.lean ====
section
/-! DEFINITION. The operations over the output ports that every meaning ends in: a result, a raised error (60_exceptions.md
R85, R87), the end of a transaction (70_reset_and_hazards.md R100), reading an output port (R25) and reset (R102). -/

namespace Sys2Proof.Machine

/-- A successful transaction's outputs before its results: `STATUS` holds `OK` and nothing else holds a value (R15, R87). -/
def Outputs.success : Outputs := { Outputs.noValue with status := some Status.ok.code }

/-- `raise E(len, required, available)` (R13, R87): `STATUS` holds the error's code, the context ports the fields named,
and no result port holds a value. This is the whole of an error: it saves no state and transfers control nowhere (R85,
R95), and nothing returns from it (R96). -/
def raise (e : Status) (len required available : Option Nat) : Outputs :=
  { Outputs.noValue with status := some e.code, errLen := len, errReq := required, errAvail := available }

/-- `AlignmentError` (R88). -/
def raiseAlignment (len required : Nat) : Outputs := raise .alignment (some len) (some required) none

/-- `CapacityExceededError` (R89). -/
def raiseCapacity (len required available : Nat) : Outputs :=
  raise .capacityExceeded (some len) (some required) (some available)

/-- `LengthOverflowError` (R90). -/
def raiseOverflow (len : Nat) : Outputs := raise .lengthOverflow (some len) none none

/-- `PreconditionViolation` (R92). -/
def raisePrecondition (len required available : Nat) : Outputs :=
  raise .precondition (some len) (some required) (some available)

/-- `ReservedEncoding` (R91): the context is the command word as a natural. -/
def raiseReserved (w : CmdWord) : Outputs := raise .reservedEncoding (some w.toNat) none none

/-- The end of a transaction: the output ports hold what it wrote, and no value of an earlier one (R25, R100). -/
def State.finish (s : State) (o : Outputs) : Result := .next (s.setOut o)

/-- Asserting the reset input (R102): no output port holds a value; the parameters stay. -/
def State.assertReset (s : State) : State := s.setOut Outputs.noValue

/-- Whether a result port holds a value. -/
def Outputs.holdsResult (o : Outputs) : ResultPort → Bool
  | .rBits => o.rBits.isSome
  | .rBytes => o.rBytes.isSome
  | .rBlocks => o.rBlocks.isSome
  | .rNum => o.rNum.isSome
  | .rTblock => o.rTblock.isSome
  | .rDigest => o.rDigest.isSome

/-- Whether an output port holds a value. -/
def Outputs.holds (o : Outputs) : OutPort → Bool
  | .status => o.status.isSome
  | .result r => o.holdsResult r
  | .errLen => o.errLen.isSome
  | .errReq => o.errReq.isSome
  | .errAvail => o.errAvail.isSome

/-- Reading the output port `p`, whose content is `v`: a port without a value faults (R25, U1 to U4). -/
def readOut {α : Type} (p : OutPort) (v : Option α) : Except Fault α :=
  match v with
  | some a => .ok a
  | none => .error (.outputAbsent p)

/-- The host's reading of `STATUS` (R101 step 3). -/
def State.readStatus (s : State) : Except Fault (BitVec 3) := readOut .status s.out.status

/-- The host's reading of the error context (R101 step 4): `ERR_LEN`, `ERR_REQ`, `ERR_AVAIL`. -/
def State.readErrLen (s : State) : Except Fault Nat := readOut .errLen s.out.errLen
def State.readErrReq (s : State) : Except Fault Nat := readOut .errReq s.out.errReq
def State.readErrAvail (s : State) : Except Fault Nat := readOut .errAvail s.out.errAvail

/-- The host's reading of a result port (R101 step 4). -/
def State.readBits (s : State) : Except Fault Bits := readOut (.result .rBits) s.out.rBits
def State.readBytes (s : State) : Except Fault Bytes := readOut (.result .rBytes) s.out.rBytes
def State.readBlocks (s : State) : Except Fault Blocks := readOut (.result .rBlocks) s.out.rBlocks
def State.readNum (s : State) : Except Fault Nat := readOut (.result .rNum) s.out.rNum
def State.readTblock (s : State) : Except Fault Nat := readOut (.result .rTblock) s.out.rTblock
def State.readDigest (s : State) : Except Fault Bits := readOut (.result .rDigest) s.out.rDigest

end Sys2Proof.Machine
end

