-- ==== Sys2Proof/Machine/Operands.lean ====
section
/-! DEFINITION. Operand ports: which an operation reads (30_encoding.md R49, R50), how it reads one (R48), how the host
drives them (70_reset_and_hazards.md R101, with the copies of R52), and whether a value fits a physical port (D13, D14). -/

namespace Sys2Proof.Machine

/-- The operand ports an operation reads (R49, second column). -/
def readsPort : Instr → InPort → Bool
  | .bytesToBits, p => p == .aBytes
  | .bitsToBytes, p => p == .aBits
  | .pad, p => p == .aBits || p == .n
  | .segment, p => p == .aBits || p == .m
  | .fit, p => p == .aBlocks || p == .m
  | .tblock, p => p == .n
  | .capacity, p => p == .n
  | .maxlen, p => p == .n
  | .digest, p => p == .aBlocks || p == .n
  | .format, p => p == .aBits || p == .n
  | .hash, p => p == .aBits || p == .n

/-- `A_BITS`, read whole (R48). -/
def withBits (s : State) (k : Bits → Result) : Result :=
  match s.aBits with
  | some a => k a
  | none => .fault (.operandAbsent .aBits)

/-- `A_BYTES`, read whole. -/
def withBytes (s : State) (k : Bytes → Result) : Result :=
  match s.aBytes with
  | some a => k a
  | none => .fault (.operandAbsent .aBytes)

/-- `A_BLOCKS`, read whole. -/
def withBlocks (s : State) (k : Blocks → Result) : Result :=
  match s.aBlocks with
  | some a => k a
  | none => .fault (.operandAbsent .aBlocks)

/-- `N`, an unbounded natural used as it is (R48). -/
def withN (s : State) (k : Nat → Result) : Result :=
  match s.n with
  | some v => k v
  | none => .fault (.operandAbsent .n)

/-- `M`, as `N`. -/
def withM (s : State) (k : Nat → Result) : Result :=
  match s.m with
  | some v => k v
  | none => .fault (.operandAbsent .m)

/-- Whether an operand port holds a value. -/
def State.drives (s : State) : InPort → Bool
  | .aBits => s.aBits.isSome
  | .aBytes => s.aBytes.isSome
  | .aBlocks => s.aBlocks.isSome
  | .n => s.n.isSome
  | .m => s.m.isSome

/-! The host's copies (R52): `$R_…` is the previous transaction's result; a port without a value faults (R25). -/

def copyResult {α : Type} (r : ResultPort) (v : Option α) : Except Fault α :=
  match v with
  | some a => .ok a
  | none => .error (.resultAbsent r)

def BitsArg.resolve (o : Outputs) : BitsArg → Except Fault Bits
  | .value s => .ok s
  | .rBits => copyResult .rBits o.rBits
  | .rDigest => copyResult .rDigest o.rDigest

def BytesArg.resolve (o : Outputs) : BytesArg → Except Fault Bytes
  | .value b => .ok b
  | .rBytes => copyResult .rBytes o.rBytes

def BlocksArg.resolve (o : Outputs) : BlocksArg → Except Fault Blocks
  | .value b => .ok b
  | .rBlocks => copyResult .rBlocks o.rBlocks

def NumArg.resolve (o : Outputs) : NumArg → Except Fault Nat
  | .value v => .ok v
  | .rNum => copyResult .rNum o.rNum
  | .rTblock => copyResult .rTblock o.rTblock

/-- A port the host does not drive holds no value. -/
def driven {α β : Type} (f : α → Except Fault β) : Option α → Except Fault (Option β)
  | none => .ok none
  | some a =>
    match f a with
    | .ok b => .ok (some b)
    | .error e => .error e

/-- Presenting a transaction (R101 steps 1 and 2): every input port holds what the host drives it with, and copies are
taken from the results of the transaction before. -/
def present (t : Transaction) (s : State) : Except Fault State := do
  let bits ← driven (BitsArg.resolve s.out) t.aBits
  let bytes ← driven (BytesArg.resolve s.out) t.aBytes
  let blocks ← driven (BlocksArg.resolve s.out) t.aBlocks
  let n ← driven (NumArg.resolve s.out) t.n
  let m ← driven (NumArg.resolve s.out) t.m
  return { s with cmd := some t.cmd, aBits := bits, aBytes := bytes, aBlocks := blocks, n := n, m := m }

/-! Physical port widths, the OPEN parameters `LEN_WIDTH` and `BUS_BITS` (R10, D13, D14, U12). -/

/-- A number fits a number port. -/
def fitsNumber (p : Instance) (v : Nat) : Bool :=
  match p.lenWidth with
  | none => true
  | some w => decide (v < 2 ^ w)

/-- A sequence of so many bits fits a sequence port. -/
def fitsSequence (p : Instance) (bits : Nat) : Bool :=
  match p.busBits with
  | none => true
  | some b => decide (bits ≤ b)

/-- What an operand port holds fits it. -/
def State.operandFits (s : State) : InPort → Bool
  | .aBits => s.aBits.all fun a => fitsSequence s.inst a.length
  | .aBytes => s.aBytes.all fun b => fitsSequence s.inst (8 * b.length)
  | .aBlocks => s.aBlocks.all fun b => fitsSequence s.inst (totalBits b)
  | .n => s.n.all (fitsNumber s.inst)
  | .m => s.m.all (fitsNumber s.inst)

/-- The first port, in the order of R22, whose operand the operation reads and which does not fit. -/
def wideOperand (i : Instr) (s : State) : Option InPort :=
  InPort.all.find? fun p => readsPort i p && !s.operandFits p

/-- Every output port's value fits it; on unbounded ports, without looking at it. -/
def outputsFit (p : Instance) (o : Outputs) : Bool :=
  (p.lenWidth.isNone && p.busBits.isNone) ||
  ((o.rBits.all fun a => fitsSequence p a.length) &&
    (o.rBytes.all fun b => fitsSequence p (8 * b.length)) &&
    (o.rBlocks.all fun b => fitsSequence p (totalBits b)) &&
    (o.rDigest.all fun a => fitsSequence p a.length) &&
    o.rNum.all (fitsNumber p) && o.rTblock.all (fitsNumber p) &&
    o.errLen.all (fitsNumber p) && o.errReq.all (fitsNumber p) && o.errAvail.all (fitsNumber p))

end Sys2Proof.Machine
end

