-- ==== Sys2Proof/Machine/BlockSpace.lean ====
section
/-! DEFINITION. BlockSpaceSelector (43_blockspace.md): `TBLOCK`, `CAPACITY` and `MAXLEN`, and building an instance
(10_state.md R21, R71). -/

namespace Sys2Proof.Machine

/-- `tBlock`, the real-block count of a message of `len` bits (R68). -/
def tBlock (len : Nat) : Nat := (len + 64) / 512 + 1

/-- The capacity of a block-space exponent (R70). -/
def capacityOf (bs : Nat) : Nat := 2 ^ bs

/-- The largest length that fits a capacity of at least 1 (R72, 90_conflicts.md C1). -/
def maxLen (k : Nat) : Nat := 512 * k - 65

/-- `MAXLEN` (R72). -/
def maxlenOutputs (k : Nat) : Outputs :=
  if k = 0 then raisePrecondition 0 1 0 else { Outputs.success with rNum := some (maxLen k) }

/-- `TBLOCK` (R68): every natural, `2^64` and above included (D28). -/
def execTblock (s : State) : Result := withN s fun len => s.finish { Outputs.success with rNum := some (tBlock len) }

/-- `CAPACITY` (R70). -/
def execCapacity (s : State) : Result :=
  withN s fun bs => s.finish { Outputs.success with rNum := some (capacityOf bs) }

/-- `MAXLEN` (R72). -/
def execMaxlen (s : State) : Result := withN s fun k => s.finish (maxlenOutputs k)

/-- The capacity a builder asks for: `C` itself, or `2^BS` (R7, R71). -/
def requestedCapacity : CapacitySpec → Nat
  | .blocks c => c
  | .blockSpace bs => capacityOf bs

/-- Building an instance (R21, R71, R103): `C = 0` is refused, and so are sequence ports too narrow for a `FORMAT` result
(D10, D14). -/
def elaborate (b : Build) : Except Refusal Instance :=
  if h : 1 ≤ requestedCapacity b.capacity then
    if hb : busHolds (requestedCapacity b.capacity) b.busBits = true then
      .ok ⟨requestedCapacity b.capacity, h, b.iv, b.compress, b.lenWidth, b.busBits, hb⟩
    else .error .busTooNarrow
  else .error .noCapacity

end Sys2Proof.Machine
end

