-- ==== Sys2Proof/Machine/SegmentFit.lean ====
section
/-! DEFINITION. BlockSegmenter and CapacityFitter (42_segment_fit.md): `SEGMENT` and `FIT`. -/

namespace Sys2Proof.Machine

/-- `SEGMENT` (R65): any width of at least 1 (90_conflicts.md C7). -/
def segmentOutputs (a : Bits) (w : Nat) : Outputs :=
  if w = 0 then raisePrecondition a.length 1 0
  else if a.length % w ≠ 0 then raiseAlignment a.length w
  else { Outputs.success with rBlocks := some (chunks w (a.length / w) a) }

/-- The first block, counting from index `i`, whose width is not `w`: its index and its width (R66, R78). -/
def wrongWidth (w : Nat) : Nat → Blocks → Option (Nat × Nat)
  | _, [] => none
  | i, b :: rest => if b.length ≠ w then some (i, b.length) else wrongWidth w (i + 1) rest

/-- The blocks followed by zero blocks of width `w`, up to `c` blocks (R66). -/
def fillTo (c w : Nat) (b : Blocks) : Blocks := b ++ List.replicate (c - b.length) (zeros w)

/-- `FIT` on an instance of capacity `c` (R66), the checks in the order of R94. -/
def fitOutputs (c : Nat) (b : Blocks) (w : Nat) : Outputs :=
  if w = 0 then raisePrecondition 0 1 0
  else match wrongWidth w 0 b with
    | some (i, len) => raisePrecondition len w i
    | none =>
      if b.length > c then raiseCapacity b.length b.length c
      else { Outputs.success with rBlocks := some (fillTo c w b) }

/-- `SEGMENT` (R65). -/
def execSegment (s : State) : Result := withBits s fun a => withM s fun w => s.finish (segmentOutputs a w)

/-- `FIT` (R66), with `capacityBlocks` the parameter `C` (R49, D11). -/
def execFit (s : State) : Result :=
  withBlocks s fun b => withM s fun w => s.finish (fitOutputs s.inst.capacity b w)

end Sys2Proof.Machine
end

