-- ==== Sys2Proof/Machine/Digest.lean ====
section
/-! DEFINITION. DigestEngine (44_digest.md): chaining, the digest selector and `DIGEST`. -/

namespace Sys2Proof.Machine

/-- The parameter `Compress` as a function (R9, R75). -/
def applyCompressor : Compressor → Word256 → Bits → Word256
  | .standard => Sha256.compress
  | .external k => Config.externalCompress k

/-- The chaining values `H_0, …, H_n` of `n` blocks from `H_0 = h` (R76). -/
def chainValues (f : Word256 → Bits → Word256) (h : Word256) : Blocks → List Word256
  | [] => [h]
  | b :: rest => h :: chainValues f (f h b) rest

/-- `bits(H)`: the words `H.0 … H.7`, each most significant bit first (R35, D15). -/
def digestBits (h : Word256) : Bits := h.words.flatMap fun w => be 32 w.toNat

/-- `H_t` of an instance's chain over a block sequence, the value the digest selector outputs (R76, R77). -/
def selectedValue (p : Instance) (b : Blocks) (t : Nat) : Word256 :=
  (chainValues (applyCompressor p.compress) p.iv b).getD t p.iv

/-- `DIGEST` (R78), the checks in the order of R94. -/
def digestOutputs (p : Instance) (b : Blocks) (t : Nat) : Outputs :=
  match wrongWidth 512 0 b with
  | some (i, len) => raisePrecondition len 512 i
  | none =>
    if t < 1 ∨ t > b.length then raisePrecondition t 1 b.length
    else { Outputs.success with rDigest := some (digestBits (selectedValue p b t)) }

/-- `DIGEST` (R78). -/
def execDigest (s : State) : Result :=
  withBlocks s fun b => withN s fun t => s.finish (digestOutputs s.inst b t)

end Sys2Proof.Machine
end

