-- ==== Sys2Proof/Machine/Padder.lean ====
section
/-! DEFINITION. Padder (41_padder.md): `PAD`. -/

namespace Sys2Proof.Machine

/-- The zero run `k = (447 - (L mod 512)) mod 512`, over naturals as R12 and R60 say. -/
def zeroRun (len : Nat) : Nat := (959 - len % 512) % 512

/-- `A_BITS[0..L) ++ [1] ++ zeros(k) ++ be_64(L)` (R59). -/
def padded (a : Bits) (len : Nat) : Bits := slice 0 len a ++ [true] ++ zeros (zeroRun len) ++ be 64 len

/-- `PAD` (R59): the overflow check comes first (R94). -/
def padOutputs (a : Bits) (len : Nat) : Outputs :=
  if len ≥ 2 ^ 64 then raiseOverflow len
  else if len > a.length then raisePrecondition len len a.length
  else { Outputs.success with rBits := some (padded a len) }

/-- `PAD` (R59). -/
def execPad (s : State) : Result := withBits s fun a => withN s fun len => s.finish (padOutputs a len)

end Sys2Proof.Machine
end

