-- ==== Sys2Proof/Machine/Composite.lean ====
section
/-! DEFINITION. The composed datapath (45_composite.md): `FORMAT` and `HASH`. -/

namespace Sys2Proof.Machine

/-- The checks `FORMAT` and `HASH` share, in their order (R80, R82, R94): the error they raise, if any. -/
def formatError (c : Nat) (a : Bits) (len : Nat) : Option Outputs :=
  if len ≥ 2 ^ 64 then some (raiseOverflow len)
  else if tBlock len > c then some (raiseCapacity len (tBlock len) c)
  else if len > a.length then some (raisePrecondition len len a.length)
  else none

/-- The `c` blocks of `FORMAT` (R80): the padded sequence in blocks of 512, then zero blocks. -/
def formatBlocks (c : Nat) (a : Bits) (len : Nat) : Blocks :=
  chunks 512 (tBlock len) (padded a len) ++ List.replicate (c - tBlock len) (zeros 512)

/-- `FORMAT` (R80). -/
def formatOutputs (c : Nat) (a : Bits) (len : Nat) : Outputs :=
  match formatError c a len with
  | some e => e
  | none => { Outputs.success with rBlocks := some (formatBlocks c a len), rTblock := some (tBlock len) }

/-- `HASH` (R82): it writes the digest and the real-block count, and not the blocks. -/
def hashOutputs (p : Instance) (a : Bits) (len : Nat) : Outputs :=
  match formatError p.capacity a len with
  | some e => e
  | none =>
    { Outputs.success with
      rDigest := some (digestBits (selectedValue p (formatBlocks p.capacity a len) (tBlock len)))
      rTblock := some (tBlock len) }

/-- `FORMAT` (R80). -/
def execFormat (s : State) : Result :=
  withBits s fun a => withN s fun len => s.finish (formatOutputs s.inst.capacity a len)

/-- `HASH` (R82). -/
def execHash (s : State) : Result := withBits s fun a => withN s fun len => s.finish (hashOutputs s.inst a len)

end Sys2Proof.Machine
end

