-- ==== Sys2Proof/Machine/Serializer.lean ====
section
/-! DEFINITION. BitSerializer (40_serializer.md): `BYTES_TO_BITS` and `BITS_TO_BYTES`. -/

namespace Sys2Proof.Machine

/-- The bits of a byte sequence, each byte most significant bit first (R31, R56). -/
def bytesToBits (b : Bytes) : Bits := b.flatMap byteBits

/-- The bytes of a bit sequence whose length is a multiple of 8 (R31, R57). -/
def bitsToBytes (s : Bits) : Bytes := (chunks 8 (s.length / 8) s).map fun c => BitVec.ofNat 8 (natOfBits c)

/-- `BITS_TO_BYTES` (R57). -/
def bitsToBytesOutputs (a : Bits) : Outputs :=
  if a.length % 8 ≠ 0 then raiseAlignment a.length 8
  else { Outputs.success with rBytes := some (bitsToBytes a) }

/-- `BYTES_TO_BITS` (R56). -/
def execBytesToBits (s : State) : Result :=
  withBytes s fun b => s.finish { Outputs.success with rBits := some (bytesToBits b) }

/-- `BITS_TO_BYTES` (R57). -/
def execBitsToBytes (s : State) : Result := withBits s fun a => s.finish (bitsToBytesOutputs a)

end Sys2Proof.Machine
end

