-- ==== Sys2Proof/Machine/Dispatch.lean ====
section
/-! DEFINITION. Which meaning each operation has (30_encoding.md R45). -/

namespace Sys2Proof.Machine

/-- One operation on the input ports the state holds. -/
def exec (i : Instr) (s : State) : Host.Outcome State Fault Refusal :=
  match i with
  | .bytesToBits => Sys2Proof.Machine.execBytesToBits s
  | .bitsToBytes => Sys2Proof.Machine.execBitsToBytes s
  | .pad => Sys2Proof.Machine.execPad s
  | .segment => Sys2Proof.Machine.execSegment s
  | .fit => Sys2Proof.Machine.execFit s
  | .tblock => Sys2Proof.Machine.execTblock s
  | .capacity => Sys2Proof.Machine.execCapacity s
  | .maxlen => Sys2Proof.Machine.execMaxlen s
  | .digest => Sys2Proof.Machine.execDigest s
  | .format => Sys2Proof.Machine.execFormat s
  | .hash => Sys2Proof.Machine.execHash s

end Sys2Proof.Machine
end

