-- ==== Sys2Proof/Machine/Transact.lean ====
section
/-! DEFINITION. One transaction, from the presented command word to its end (00_scope.md R17; 60_exceptions.md R94), and
the sample transaction that `withFetchWord` presents. -/

namespace Sys2Proof.Machine

/-- A transaction whose outputs do not fit the instance's ports has no run (D14). -/
def admitOutputs (s : State) : Result := if outputsFit s.inst s.out then .next s else .refused .resultTooWide

/-- Check the instance's ports around an operation (D13, D14). -/
def execChecked (i : Instr) (s : State) : Result :=
  match wideOperand i s with
  | some p => .refused (.operandTooWide p)
  | none =>
    match exec i s with
    | .next t => admitOutputs t
    | .fault f => .fault f
    | .refused r => .refused r

/-- The transaction whose command word is `w` and whose operands the ports hold: the command word is checked before any
operand is read (R94), and a reserved one performs no operation (R46, R47, R91). -/
def transact (w : CmdWord) (s : State) : Result :=
  match decode w with
  | .error _ => admitOutputs (s.setOut (raiseReserved w))
  | .ok i => execChecked i s

/-- The host presents a transaction and holds it to its end (R101). -/
def runTransaction (t : Transaction) (s : State) : Result :=
  match present t s with
  | .error f => .fault f
  | .ok s' => transact t.cmd s'

/-- A sample for `A_BLOCKS`: `DIGEST` takes blocks of 512 bits only (R78); no other operation needs a block. -/
def sampleBlocks (w : CmdWord) : Blocks := if w = encode .digest then [zeros 512] else []

/-- A transaction with the command word `w` whose ports keep what they hold in `s`; a port that holds nothing is driven
with a sample value (log entry 5). -/
def sampleTransaction (w : CmdWord) (s : State) : Transaction where
  cmd := w
  aBits := some (.value (s.aBits.getD (zeros 8)))
  aBytes := some (.value (s.aBytes.getD [0]))
  aBlocks := some (.value (s.aBlocks.getD (sampleBlocks w)))
  n := some (.value (s.n.getD 1))
  m := some (.value (s.m.getD 1))

end Sys2Proof.Machine
end

