-- ==== Sys2Proof/Machine/Step.lean ====
section
/-! DEFINITION. One step: the host's next event (00_scope.md R17; 70_reset_and_hazards.md R100 to R102, R107). -/

namespace Sys2Proof.Machine

/-- One step. With nothing to do the block waits and its ports keep what they hold; a transaction is one atomic step
(R17, R38). -/
def step (s : State) : Host.Outcome State Fault Refusal :=
  match s.host with
  | [] => .next s
  | .reset :: rest => .next (s.setHost rest).assertReset
  | .run t :: rest => runTransaction t (s.setHost rest)

/-- Put a transaction with the table word `w` in front of what the host will do, so that the next step runs it. -/
def State.withFetchWord (s : State) (_nbits w : Nat) : State :=
  s.setHost (.run (sampleTransaction (BitVec.ofNat 16 w) s) :: s.host)

end Sys2Proof.Machine
end

