-- ==== Sys2Proof/Machine/FixedShape.lean ====
section
/-! DEFINITION. The fixed-shape forms the spec gives beside the pseudocode: each output bit as a selection (41_padder.md
R62, 44_digest.md R77, 45_composite.md R81), and the reference digest the block is held to (R83). `exec` does not use
them; the statements say that it agrees with them. -/

namespace Sys2Proof.Machine

/-- The exclusive end of the real blocks, `E = 512*T` (R62, R81). -/
def realEnd (len : Nat) : Nat := 512 * tBlock len

/-- Bit `p` of the padded sequence, for `p < E` (R62). -/
def paddedBit (a : Bits) (len p : Nat) : Bool :=
  if p < len then a.getD p false
  else if p = len then true
  else if p < realEnd len - 64 then false
  else bitOf (realEnd len - 1 - p) len

/-- `F(p)`: bit `p` of the `FORMAT` buffer of `512*C` bits (R81). -/
def formatBit (a : Bits) (len p : Nat) : Bool := if p < realEnd len then paddedBit a len p else false

/-- The whole `FORMAT` buffer, computed bit by bit: `c` blocks of 512 bits whatever `len` is (R81). -/
def fixedFormatBlocks (c : Nat) (a : Bits) (len : Nat) : Blocks :=
  (List.range c).map fun i => (List.range 512).map fun j => formatBit a len (512 * i + j)

/-- Bit `q` of the digest selector multiplexer over the chaining values `H_0, …, H_n` with selector `t` (R77). -/
def muxBit (hs : List Word256) (t q : Nat) : Bool :=
  (List.range hs.length).any fun i => decide (1 ≤ i) && decide (t = i) && (digestBits (hs.getD i default)).getD q false

/-- The multiplexer's 256 output bits (R77). -/
def muxBits (hs : List Word256) (t : Nat) : Bits := (List.range 256).map (muxBit hs t)

/-- `HASH` in its fixed shape: every chaining value of the `C` blocks is computed, and the multiplexer picks one (R17,
R79, R82). -/
def fixedHashBits (p : Instance) (a : Bits) (len : Nat) : Bits :=
  muxBits (chainValues (applyCompressor p.compress) p.iv (fixedFormatBlocks p.capacity a len)) (tBlock len)

/-- The four bytes of a word, most significant first. -/
def wordBytes (w : Word) : Bytes :=
  [BitVec.ofNat 8 (natField 31 24 w.toNat), BitVec.ofNat 8 (natField 23 16 w.toNat),
   BitVec.ofNat 8 (natField 15 8 w.toNat), BitVec.ofNat 8 (natField 7 0 w.toNat)]

/-- The reference SHA-256 digest of a byte message (93_implementation_defined.md, the end of section 2.3): pad, cut into
blocks of 512, compress them all from the standard `IV`, and write `H.0 … H.7` as 32 bytes. PRESUMED, log entry 2. -/
def referenceSha256 (m : Bytes) : Bytes :=
  let p := padded (bytesToBits m) (8 * m.length)
  ((chunks 512 (p.length / 512) p).foldl Sha256.compress Sha256.iv).words.flatMap wordBytes

end Sys2Proof.Machine
end

