-- ==== Sys2Proof/Machine/Assemble.lean ====
section
/-! DEFINITION. From the outside to a transaction: the assembler of textual transactions (30_encoding.md R52, R54, R55), the
pseudo-operations (R53), and the boundary check on raw port slots (10_state.md R23). -/

namespace Sys2Proof.Machine

/-- The bytes of a byte literal (R52). -/
def textBytes : TextSeq → Bytes
  | .bin _ => []
  | .hex b => b
  | .ascii t => t.map fun c => BitVec.ofNat 8 c.toNat
  | .zeros _ => []
  | .rep t n => (List.replicate n (t.map fun c => BitVec.ofNat 8 c.toNat)).flatten

/-- The bits of a sequence literal: a bit literal's own, or those of its bytes by R31 (R52). -/
def textBits : TextSeq → Bits
  | .bin s => s
  | .zeros n => zeros n
  | .hex b => bytesToBits b
  | .ascii t => bytesToBits (textBytes (.ascii t))
  | .rep t n => bytesToBits (textBytes (.rep t n))

/-- What a value puts on `A_BITS`. -/
def bitsArg : TextValue → BitsArg
  | .seq q => .value (textBits q)
  | .result .rDigest => .rDigest
  | _ => .rBits

/-- What a value puts on `A_BYTES`. -/
def bytesArg : TextValue → BytesArg
  | .seq q => .value (textBytes q)
  | _ => .rBytes

/-- What a value puts on `A_BLOCKS`. -/
def blocksArg : TextValue → BlocksArg
  | .list qs => .value (qs.map textBits)
  | _ => .rBlocks

/-- What a value puts on `N` or `M`. -/
def numArg : TextValue → NumArg
  | .num v => .value v
  | .result .rTblock => .rTblock
  | _ => .rNum

/-- Whether a transaction drives an operand port. -/
def Transaction.drives (t : Transaction) : InPort → Bool
  | .aBits => t.aBits.isSome
  | .aBytes => t.aBytes.isSome
  | .aBlocks => t.aBlocks.isSome
  | .n => t.n.isSome
  | .m => t.m.isSome

/-- Drive a port with a value of a form it takes. -/
def drivePort (t : Transaction) (v : TextValue) : InPort → Transaction
  | .aBits => { t with aBits := some (bitsArg v) }
  | .aBytes => { t with aBytes := some (bytesArg v) }
  | .aBlocks => { t with aBlocks := some (blocksArg v) }
  | .n => { t with n := some (numArg v) }
  | .m => { t with m := some (numArg v) }

/-- One `<port>=<value>`: an input port, not named before, with a value of a form it takes (R52, R55). -/
def assembleArg (t : Transaction) (a : String × TextValue) : Except AsmError Transaction :=
  match InPort.ofName? a.1 with
  | none => .error (.notInputPort a.1)
  | some p =>
    if Transaction.drives t p then .error (.portTwice p)
    else if a.2.suits p then .ok (drivePort t a.2 p)
    else .error (.badValue p)

/-- The arguments from left to right. -/
def assembleArgs (t : Transaction) : List (String × TextValue) → Except AsmError Transaction
  | [] => .ok t
  | a :: rest =>
    match assembleArg t a with
    | .error e => .error e
    | .ok t' => assembleArgs t' rest

/-- The command word a textual transaction begins with (R52, R54). -/
def headWord : TextHead → Except AsmError CmdWord
  | .cmd w => .ok w
  | .op name =>
    match Instr.ofMnemonic? name with
    | none => .error (.unknownMnemonic name)
    | some i => .ok (encode i)

/-- The assembler (R52, R55): a transaction, or the reason it is refused. -/
def assemble (t : TextTransaction) : Except AsmError Transaction :=
  match headWord t.head with
  | .error e => .error e
  | .ok w => assembleArgs { cmd := w } t.args

/-- The transactions a pseudo-operation expands to (R53). -/
def expand : Pseudo → List Transaction
  | .sha256 m =>
    [{ cmd := encode .bytesToBits, aBytes := some (.value m) },
     { cmd := encode .hash, aBits := some .rBits, n := some (.value (8 * m.length)) },
     { cmd := encode .bitsToBytes, aBits := some .rDigest }]
  | .padseg s len =>
    [{ cmd := encode .pad, aBits := some (.value s), n := some (.value len) },
     { cmd := encode .segment, aBits := some .rBits, m := some (.value 512) }]

/-- The textual transactions that a textual transaction stands for: a pseudo-operation's expansion (R53), or itself. `SHA256`
takes one byte literal, whose length its second transaction needs; `PADSEG` takes `A_BITS` and `N` (log entry 13). -/
def expandText (t : TextTransaction) : Except AsmError (List TextTransaction) :=
  if t.head = .op "SHA256" then
    match t.args with
    | [("A_BYTES", .seq q)] =>
      .ok [⟨.op "BYTES_TO_BITS", [("A_BYTES", .seq q)]⟩,
        ⟨.op "HASH", [("A_BITS", .result .rBits), ("N", .num (8 * (textBytes q).length))]⟩,
        ⟨.op "BITS_TO_BYTES", [("A_BITS", .result .rDigest)]⟩]
    | _ => .error (.badPseudo "SHA256")
  else if t.head = .op "PADSEG" then
    if (t.args.map Prod.fst).all (fun p => p == "A_BITS" || p == "N") && t.args.length == 2 then
      .ok [⟨.op "PAD", t.args⟩, ⟨.op "SEGMENT", [("A_BITS", .result .rBits), ("M", .num 512)]⟩]
    else .error (.badPseudo "PADSEG")
  else .ok [t]

/-- All of a list, or the first error. -/
def assembleAll : List TextTransaction → Except AsmError (List Transaction)
  | [] => .ok []
  | t :: rest =>
    match assemble t, assembleAll rest with
    | .error e, _ => .error e
    | .ok _, .error e => .error e
    | .ok u, .ok us => .ok (u :: us)

/-- A program as the host's list: its transactions in order (R52, R107). -/
def runAll (ts : List Transaction) : List HostEvent := ts.map .run

/-- A bit slot's value (R23). -/
def slotBit (v : Nat) : Bool := v == 1

/-- The boundary (R23, D27): a raw transaction with every slot in its range, or the refusal. -/
def admitRaw (t : RawTransaction) : Except Refusal Transaction :=
  if ¬ t.cmd < 2 ^ 16 then .error .commandTooWide
  else if ¬ (t.aBits.getD []).all bitSlot then .error (.slotNotBinary .aBits)
  else if ¬ (t.aBytes.getD []).all byteSlot then .error .byteOutOfRange
  else if ¬ (t.aBlocks.getD []).all fun b => b.all bitSlot then .error (.slotNotBinary .aBlocks)
  else .ok
    { cmd := BitVec.ofNat 16 t.cmd
      aBits := t.aBits.map fun s => .value (s.map slotBit)
      aBytes := t.aBytes.map fun s => .value (s.map fun v => BitVec.ofNat 8 v)
      aBlocks := t.aBlocks.map fun b => .value (b.map fun s => s.map slotBit)
      n := t.n.map .value
      m := t.m.map .value }

end Sys2Proof.Machine
end

