-- ==== Sys2Proof/Machine/Text.lean ====
section
/-! DEFINITION. The textual syntax as characters (30_encoding.md R52): reading a line of text as a textual transaction, and
a program of lines as the host's list. Blanks may stand between any two parts (log entry 13). A reader answers what it read
and the characters after it, or nothing. -/

namespace Sys2Proof.Machine

/-- A reader of the front of a text. -/
abbrev Reader (α : Type) := List Char → Option (α × List Char)

/-- The text after its leading blanks. -/
def skipBlanks (cs : List Char) : List Char := cs.dropWhile fun c => c == ' '

/-- The text after the character `c`. -/
def readChar (c : Char) (cs : List Char) : Option (List Char) :=
  match skipBlanks cs with
  | d :: rest => if d = c then some rest else none
  | [] => none

def isNameChar (c : Char) : Bool := c.isAlphanum || c == '_'

/-- A mnemonic, a port's name or the name of a form. -/
def readName : Reader (List Char) := fun cs =>
  match (skipBlanks cs).takeWhile isNameChar with
  | [] => none
  | name => some (name, (skipBlanks cs).dropWhile isNameChar)

/-- The value of a hexadecimal digit. -/
def hexDigit? (c : Char) : Option Nat :=
  if '0' ≤ c ∧ c ≤ '9' then some (c.toNat - '0'.toNat)
  else if 'a' ≤ c ∧ c ≤ 'f' then some (c.toNat - 'a'.toNat + 10)
  else if 'A' ≤ c ∧ c ≤ 'F' then some (c.toNat - 'A'.toNat + 10)
  else none

/-- The value of a decimal digit. -/
def decDigit? (c : Char) : Option Nat := if '0' ≤ c ∧ c ≤ '9' then some (c.toNat - '0'.toNat) else none

/-- Digits in a base, most significant first, after the digits already read. -/
def digitsValue (digit? : Char → Option Nat) (base : Nat) : Nat → List Char → Option Nat
  | acc, [] => some acc
  | acc, c :: rest =>
    match digit? c with
    | some d => digitsValue digit? base (base * acc + d) rest
    | none => none

/-- A number: decimal, or `0x` and hexadecimal digits. -/
def numberOf : List Char → Option Nat
  | '0' :: 'x' :: d :: rest => digitsValue hexDigit? 16 0 (d :: rest)
  | d :: rest => digitsValue decDigit? 10 0 (d :: rest)
  | [] => none

def readNumber : Reader Nat := fun cs =>
  match readName cs with
  | some (word, rest) => (numberOf word).map fun v => (v, rest)
  | none => none

/-- The characters up to a closing quotation mark; none of them is one. -/
def readQuoted : Reader (List Char) := fun cs =>
  match readChar '"' cs with
  | some rest =>
    match rest.dropWhile fun c => c != '"' with
    | _ :: after => some (rest.takeWhile (fun c => c != '"'), after)
    | [] => none
  | none => none

/-- The bits of `b"…"`. -/
def bitDigits : List Char → Option (List Bool)
  | [] => some []
  | '0' :: rest => (bitDigits rest).map (false :: ·)
  | '1' :: rest => (bitDigits rest).map (true :: ·)
  | _ :: _ => none

/-- The bytes of `x"…"`, two digits each. -/
def hexBytes : List Char → Option Bytes
  | [] => some []
  | [_] => none
  | c :: d :: rest =>
    match hexDigit? c, hexDigit? d, hexBytes rest with
    | some h, some l, some bytes => some (BitVec.ofNat 8 (16 * h + l) :: bytes)
    | _, _, _ => none

/-- The number between two brackets. -/
def readCount : Reader Nat := fun cs =>
  match readNumber cs with
  | some (n, rest) => (readChar ')' rest).map fun after => (n, after)
  | none => none

/-- A sequence literal. -/
def readSeq : Reader TextSeq := fun cs =>
  match skipBlanks cs with
  | '"' :: rest => (readQuoted ('"' :: rest)).map fun r => (.ascii r.1, r.2)
  | 'b' :: '"' :: rest =>
    match readQuoted ('"' :: rest) with
    | some (digits, after) => (bitDigits digits).map fun bits => (.bin bits, after)
    | none => none
  | 'x' :: '"' :: rest =>
    match readQuoted ('"' :: rest) with
    | some (digits, after) => (hexBytes digits).map fun bytes => (.hex bytes, after)
    | none => none
  | 'z' :: 'e' :: 'r' :: 'o' :: 's' :: rest =>
    match readChar '(' rest with
    | some inside => (readCount inside).map fun r => (.zeros r.1, r.2)
    | none => none
  | 'r' :: 'e' :: 'p' :: 'e' :: 'a' :: 't' :: rest =>
    match readChar '(' rest with
    | some inside =>
      match readQuoted inside with
      | some (text, after) =>
        match readChar ',' after with
        | some more => (readCount more).map fun r => (.rep text r.1, r.2)
        | none => none
      | none => none
    | none => none
  | _ => none

/-- At most `fuel` things with commas between them. -/
def readSeparated {α : Type} (read : Reader α) : Nat → Reader (List α)
  | 0 => fun _ => none
  | fuel + 1 => fun cs =>
    match read cs with
    | some (a, rest) =>
      match readChar ',' rest with
      | some more => (readSeparated read fuel more).map fun r => (a :: r.1, r.2)
      | none => some ([a], rest)
    | none => none

/-- A block sequence `[s0, s1, …]`, from after its opening bracket. R52 does not define the elements; DESIGN CHOICE (log
entry 13): each is a sequence literal, `[]` is the block sequence with no block, and `[$R_BITS]` is no list. -/
def readList : Reader (List TextSeq) := fun cs =>
  match readChar ']' cs with
  | some after => some ([], after)
  | none =>
    match readSeparated readSeq cs.length cs with
    | some (qs, rest) => (readChar ']' rest).map fun after => (qs, after)
    | none => none

/-- The result port of a name. -/
def resultOfName? (name : List Char) : Option ResultPort :=
  if name = ['R', '_', 'B', 'I', 'T', 'S'] then some .rBits
  else if name = ['R', '_', 'B', 'Y', 'T', 'E', 'S'] then some .rBytes
  else if name = ['R', '_', 'B', 'L', 'O', 'C', 'K', 'S'] then some .rBlocks
  else if name = ['R', '_', 'N', 'U', 'M'] then some .rNum
  else if name = ['R', '_', 'T', 'B', 'L', 'O', 'C', 'K'] then some .rTblock
  else if name = ['R', '_', 'D', 'I', 'G', 'E', 'S', 'T'] then some .rDigest
  else none

/-- A value form of R52. -/
def readValue : Reader TextValue := fun cs =>
  match skipBlanks cs with
  | '$' :: rest =>
    match readName rest with
    | some (name, after) => (resultOfName? name).map fun r => (.result r, after)
    | none => none
  | '[' :: rest => (readList rest).map fun r => (.list r.1, r.2)
  | c :: rest =>
    if c.isDigit then (readNumber (c :: rest)).map fun r => (.num r.1, r.2)
    else (readSeq (c :: rest)).map fun r => (.seq r.1, r.2)
  | [] => none

/-- `<port>=<value>`. -/
def readArg : Reader (String × TextValue) := fun cs =>
  match readName cs with
  | some (name, rest) =>
    match readChar '=' rest with
    | some more => (readValue more).map fun r => ((String.ofList name, r.1), r.2)
    | none => none
  | none => none

/-- The arguments that end a line. -/
def readArgs (cs : List Char) : Option (List (String × TextValue)) :=
  if skipBlanks cs = [] then some []
  else
    match readSeparated readArg cs.length cs with
    | some (args, rest) => if skipBlanks rest = [] then some args else none
    | none => none

/-- A line: a mnemonic, or `CMD=` and a 16-bit word, and then its arguments. -/
def readLine (cs : List Char) : Option TextTransaction :=
  match readName cs with
  | none => none
  | some (name, rest) =>
    if name = ['C', 'M', 'D'] then
      match readChar '=' rest with
      | some more =>
        match readNumber more with
        | some (v, after) =>
          if v < 2 ^ 16 then (readArgs after).map fun args => ⟨.cmd (BitVec.ofNat 16 v), args⟩ else none
        | none => none
      | none => none
    else (readArgs rest).map fun args => ⟨.op (String.ofList name), args⟩

/-- The transactions of one line of text. -/
def assembleLine (cs : List Char) : Except AsmError (List Transaction) :=
  match readLine cs with
  | none => .error .badText
  | some t =>
    match expandText t with
    | .error e => .error e
    | .ok ts => assembleAll ts

/-- A program: its lines in order, as what the host will do (R52, R107). -/
def assembleProgram : List (List Char) → Except AsmError (List HostEvent)
  | [] => .ok []
  | line :: rest =>
    match assembleLine line, assembleProgram rest with
    | .error e, _ => .error e
    | .ok _, .error e => .error e
    | .ok ts, .ok hs => .ok (runAll ts ++ hs)

end Sys2Proof.Machine
end

