-- ==== Sys2Proof/Safety.lean ====
section
/-! DEFINITION. What a state of the machine keeps from step to step, and what a safe run is, in the terms the statements
use. -/

namespace Sys2Proof

/-- The instance's ports are unbounded, as the spec's model has them (00_scope.md R10). -/
def Instance.unbounded (p : Instance) : Prop := p.lenWidth = none ∧ p.busBits = none

/-- A transaction with no copy of an earlier result. -/
def Transaction.selfContained (t : Transaction) : Prop :=
  t.aBits ≠ some .rBits ∧ t.aBits ≠ some .rDigest ∧ t.aBytes ≠ some .rBytes ∧ t.aBlocks ≠ some .rBlocks ∧
    t.n ≠ some .rNum ∧ t.n ≠ some .rTblock ∧ t.m ≠ some .rNum ∧ t.m ≠ some .rTblock

/-- The transaction puts a copy of the result port `r` on some input port (30_encoding.md R52). -/
def Transaction.copies (t : Transaction) : ResultPort → Prop
  | .rBits => t.aBits = some .rBits
  | .rBytes => t.aBytes = some .rBytes
  | .rBlocks => t.aBlocks = some .rBlocks
  | .rNum => t.n = some .rNum ∨ t.m = some .rNum
  | .rTblock => t.n = some .rTblock ∨ t.m = some .rTblock
  | .rDigest => t.aBits = some .rDigest

end Sys2Proof

namespace Sys2Proof.Machine

/-- No result port holds a value. -/
def Outputs.noResult (o : Outputs) : Prop := ∀ r, o.holdsResult r = false

/-- No error-context port holds a value. -/
def Outputs.noContext (o : Outputs) : Prop := o.errLen = none ∧ o.errReq = none ∧ o.errAvail = none

/-- What the output ports hold after a success of operation `i`: `OK`, exactly the result ports the operation writes, and
no error context (30_encoding.md R49; 60_exceptions.md R87). -/
def Outputs.successOf (i : Instr) (o : Outputs) : Prop :=
  o.status = some Status.ok.code ∧ (∀ r, o.holdsResult r = writesPort i r) ∧ o.noContext

/-- What the output ports hold after an error: a code other than `OK`, the offending length, and no result (R87). -/
def Outputs.errorWith (e : Status) (o : Outputs) : Prop :=
  e ≠ .ok ∧ o.status = some e.code ∧ o.noResult ∧ o.errLen.isSome

/-- The output ports of a machine that has run no transaction since reset, or has just ended one (R25, R87). -/
def Outputs.legal (o : Outputs) : Prop :=
  o = Outputs.noValue ∨ (∃ i, o.successOf i) ∨ (∃ e, o.errorWith e)

/-- A digest is 256 bits (R24); a real-block count lies in `1..C`; and blocks beside a real-block count are `C` blocks of
512 bits, all zero from the count on (45_composite.md R84). -/
def Outputs.fitInstance (p : Instance) (o : Outputs) : Prop :=
  (∀ d, o.rDigest = some d → d.length = 256) ∧
  (∀ t, o.rTblock = some t → 1 ≤ t ∧ t ≤ p.capacity) ∧
  (∀ b t, o.rBlocks = some b → o.rTblock = some t →
    b.length = p.capacity ∧ (∀ x ∈ b, x.length = 512) ∧ ∀ i, t ≤ i → i < p.capacity → b[i]? = some (zeros 512))

/-- The invariant of the machine. -/
def State.Inv (s : State) : Prop := s.out.legal ∧ s.out.fitInstance s.inst

/-- The two states present the same operand, or its absence, on port `p`. -/
def State.agreeOn (p : InPort) (s t : State) : Prop :=
  match p with
  | .aBits => s.aBits = t.aBits
  | .aBytes => s.aBytes = t.aBytes
  | .aBlocks => s.aBlocks = t.aBlocks
  | .n => s.n = t.n
  | .m => s.m = t.m

/-- Every operand port the operation reads is driven (70_reset_and_hazards.md R101). -/
def State.presents (i : Instr) (s : State) : Prop := ∀ p, readsPort i p = true → s.drives p = true

/-- A safe run of `k` steps: it neither faults nor is refused. -/
def safeRun (k : Nat) (s : State) : Prop := ∃ t, Host.Core.run Sys2Proof.core k s = .next t

end Sys2Proof.Machine
end

