-- ==== Sys2Proof/Certificates/Slice0/Obligations.lean ====
section
/-! DEFINITION. The statements for the provers. Each says which rule of spec/ it formalises; where a clause rests on a choice
of the model's own, the docstring names the log entry. `0#3 … 5#3` are the `STATUS` codes of R86, written out. -/

open Sys2Proof Sys2Proof.Machine

/-! ### Encoding -/

/-- R45: the operation map, all sixteen codes below zero reserved bits. -/
def Obligations.OperationMapDecodes : Prop :=
  decode 0x0000#16 = .error .reservedCode ∧ decode 0x0001#16 = .ok .bytesToBits ∧ decode 0x0002#16 = .ok .bitsToBytes ∧
  decode 0x0003#16 = .ok .pad ∧ decode 0x0004#16 = .ok .segment ∧ decode 0x0005#16 = .ok .fit ∧
  decode 0x0006#16 = .ok .tblock ∧ decode 0x0007#16 = .ok .capacity ∧ decode 0x0008#16 = .ok .maxlen ∧
  decode 0x0009#16 = .ok .digest ∧ decode 0x000A#16 = .ok .format ∧ decode 0x000B#16 = .ok .hash ∧
  decode 0x000C#16 = .error .reservedCode ∧ decode 0x000D#16 = .error .reservedCode ∧
  decode 0x000E#16 = .error .reservedCode ∧ decode 0x000F#16 = .error .reservedCode

/-- R44: decoding is total, and an operation has one word, the one it encodes to; the other words are reserved, by their
upper twelve bits or by their code. -/
def Obligations.DecodeIsTotalAndInvertsEncode : Prop :=
  ∀ w : CmdWord,
    (∀ i, decode w = .ok i ↔ w = encode i) ∧
    (decode w = .error .reservedBits ↔ 16 ≤ w.toNat) ∧
    (decode w = .error .reservedCode ↔ w.toNat = 0 ∨ (12 ≤ w.toNat ∧ w.toNat ≤ 15))

/-- R46, R47, R91: a reserved command word performs no operation and raises `ReservedEncoding` with the word as context, in
every state, whatever the operand ports hold; so does a step that presents one, with whatever operands. The premise on
`LEN_WIDTH` is D14's: a number that does not fit the instance's ports has no run. -/
def Obligations.ReservedWordRaisesReservedEncoding : Prop :=
  ∀ (w : CmdWord) (s : State), (16 ≤ w.toNat ∨ w.toNat = 0 ∨ (12 ≤ w.toNat ∧ w.toNat ≤ 15)) →
    (∀ k, s.inst.lenWidth = some k → w.toNat < 2 ^ k) →
    transact w s = .next (s.setOut { Outputs.noValue with status := some 5#3, errLen := some w.toNat }) ∧
    ∀ (s₀ : State) (t : Transaction) (rest : List HostEvent), s₀.host = .run t :: rest → t.cmd = w →
      present t (s₀.setHost rest) = .ok s →
      step s₀ = .next (s.setOut { Outputs.noValue with status := some 5#3, errLen := some w.toNat })

/-! ### Steps -/

/-- A step whose next host event presents a transaction that decodes to `i` is `i` on the presented ports, inside the
checks of the instance's port widths; on unbounded ports, it is `exec` itself (R17, R44, R101; D14). When the host has
nothing to do, a step changes nothing (log entry 6, the model's choice). -/
def Obligations.StepRunsDecodedInstruction : Prop :=
  (∀ (s s' : State) (t : Transaction) (rest : List HostEvent) (i : Instr),
    s.host = .run t :: rest → present t (s.setHost rest) = .ok s' → decode t.cmd = .ok i →
    step s = execChecked i s' ∧ (s.inst.unbounded → step s = exec i s')) ∧
  (∀ s : State, s.host = [] → step s = .next s)

/-- R101, R52: presenting a transaction drives an input port with the value the host gives it or with the named result of
the transaction before, and changes neither the parameters nor the output ports. The model's choices: a port the host does
not drive loses what it held, since a transaction replaces every input port (log entry 9); which results each port can copy
(log entry 13); and what the host will do afterwards stays as it is (log entry 7). -/
def Obligations.PresentDrivesInputPorts : Prop :=
  ∀ (t : Transaction) (s s' : State), present t s = .ok s' →
    s'.cmd = some t.cmd ∧ s'.inst = s.inst ∧ s'.out = s.out ∧ s'.host = s.host ∧
    (t.aBits = none → s'.aBits = none) ∧ (∀ v, t.aBits = some (.value v) → s'.aBits = some v) ∧
    (t.aBits = some .rBits → s'.aBits = s.out.rBits) ∧ (t.aBits = some .rDigest → s'.aBits = s.out.rDigest) ∧
    (t.aBytes = none → s'.aBytes = none) ∧ (∀ v, t.aBytes = some (.value v) → s'.aBytes = some v) ∧
    (t.aBytes = some .rBytes → s'.aBytes = s.out.rBytes) ∧
    (t.aBlocks = none → s'.aBlocks = none) ∧ (∀ v, t.aBlocks = some (.value v) → s'.aBlocks = some v) ∧
    (t.aBlocks = some .rBlocks → s'.aBlocks = s.out.rBlocks) ∧
    (t.n = none → s'.n = none) ∧ (∀ v, t.n = some (.value v) → s'.n = some v) ∧
    (t.n = some .rNum → s'.n = s.out.rNum) ∧ (t.n = some .rTblock → s'.n = s.out.rTblock) ∧
    (t.m = none → s'.m = none) ∧ (∀ v, t.m = some (.value v) → s'.m = some v) ∧
    (t.m = some .rNum → s'.m = s.out.rNum) ∧ (t.m = some .rTblock → s'.m = s.out.rTblock)

/-- R25: a step faults on presenting exactly when the host copies a result port that holds no value, and the fault names a
port that the transaction copies and that holds none. The model's choice (log entry 7): it is the host that reads, so this is
so for a copy onto a port which the operation does not read, and for a reserved command word, too. -/
def Obligations.CopyOfAbsentResultFaults : Prop :=
  ∀ (s : State) (t : Transaction) (rest : List HostEvent), s.host = .run t :: rest →
    ((∃ r, step s = .fault (.resultAbsent r)) ↔
      (t.aBits = some .rBits ∧ s.out.rBits = none) ∨ (t.aBits = some .rDigest ∧ s.out.rDigest = none) ∨
      (t.aBytes = some .rBytes ∧ s.out.rBytes = none) ∨ (t.aBlocks = some .rBlocks ∧ s.out.rBlocks = none) ∨
      (t.n = some .rNum ∧ s.out.rNum = none) ∨ (t.n = some .rTblock ∧ s.out.rTblock = none) ∨
      (t.m = some .rNum ∧ s.out.rNum = none) ∨ (t.m = some .rTblock ∧ s.out.rTblock = none)) ∧
    (∀ r, step s = .fault (.resultAbsent r) → t.copies r ∧ s.out.holdsResult r = false)

/-- R27, R102: after reset no output port holds a value and the parameters are the elaboration's; asserting the reset input
gives the same and keeps the parameters and what the host will do next. -/
def Obligations.ResetLeavesNoValue : Prop :=
  (∀ p, (State.resetOf p).inst = p ∧ (State.resetOf p).out = Outputs.noValue ∧ (State.resetOf p).cmd = none ∧
    ∀ q, (State.resetOf p).drives q = false) ∧
  (∀ q, Outputs.noValue.holds q = false) ∧
  (∀ (s : State) (rest : List HostEvent), s.host = .reset :: rest →
    ∃ t, step s = .next t ∧ t.out = Outputs.noValue ∧ t.inst = s.inst ∧ t.host = rest)

/-- R21: the parameters are fixed when the instance is built: no step changes them. -/
def Obligations.StepNeverChangesParameters : Prop :=
  ∀ s t : State, step s = .next t → t.inst = s.inst

/-- R7, R21, R71, R10, D14: whatever the port widths asked for, a builder gets an instance exactly when the capacity asked
for, `C` itself or `2^BS`, is at least 1 and the sequence ports hold `512*C` bits; a capacity of 0 and a narrower bus are each
refused by name (that a bus too narrow is refused when the instance is built is log entry 8, the model's reading of "at least
`512*C`"). The instance has the capacity, the `IV`, the `Compress` and the widths asked for; and `CAPACITY` answers its
capacity for `N = BS`. -/
def Obligations.InstanceHasRequestedCapacity : Prop :=
  (∀ c, requestedCapacity (.blocks c) = c) ∧ (∀ bs, requestedCapacity (.blockSpace bs) = 2 ^ bs) ∧
  ∀ b : Build,
    ((∃ p, elaborate b = .ok p) ↔
      1 ≤ requestedCapacity b.capacity ∧ ∀ k, b.busBits = some k → 512 * requestedCapacity b.capacity ≤ k) ∧
    (elaborate b = .error .noCapacity ↔ requestedCapacity b.capacity = 0) ∧
    (elaborate b = .error .busTooNarrow ↔ ∃ k, b.busBits = some k ∧ k < 512 * requestedCapacity b.capacity) ∧
    ∀ p, elaborate b = .ok p →
      p.capacity = requestedCapacity b.capacity ∧ 1 ≤ p.capacity ∧ p.iv = b.iv ∧ p.compress = b.compress ∧
      p.lenWidth = b.lenWidth ∧ p.busBits = b.busBits ∧
      ∀ (bs : Nat) (s : State), b.capacity = .blockSpace bs → s.n = some bs →
        exec .capacity s = .next (s.setOut { Outputs.noValue with status := some 0#3, rNum := some p.capacity })

/-! ### BitSerializer -/

/-- R56 (with R31): `BYTES_TO_BITS` always completes with `OK`; the result has 8 bits for each byte, and bit `8k + j` of it
is bit `7 - j` of byte `k`. -/
def Obligations.BytesToBitsRule : Prop :=
  decode 0x0001#16 = .ok .bytesToBits ∧
  ∀ (s : State) (b : Bytes), s.aBytes = some b → ∃ r : Bits,
    exec .bytesToBits s = .next (s.setOut { Outputs.noValue with status := some 0#3, rBits := some r }) ∧
    r.length = 8 * b.length ∧
    ∀ (k j : Nat) (x : Byte), b[k]? = some x → j < 8 → r[8 * k + j]? = some (x.toNat.testBit (7 - j))

/-- R57: `BITS_TO_BYTES` raises `AlignmentError` on a length that is no multiple of 8; otherwise byte `k` is the weighted sum
of bits `8k … 8k+7`. -/
def Obligations.BitsToBytesRule : Prop :=
  decode 0x0002#16 = .ok .bitsToBytes ∧
  ∀ (s : State) (a : Bits), s.aBits = some a →
    (a.length % 8 ≠ 0 → exec .bitsToBytes s =
      .next (s.setOut { Outputs.noValue with status := some 1#3, errLen := some a.length, errReq := some 8 })) ∧
    (a.length % 8 = 0 → ∃ r : Bytes,
      exec .bitsToBytes s = .next (s.setOut { Outputs.noValue with status := some 0#3, rBytes := some r }) ∧
      r.length = a.length / 8 ∧
      ∀ (k : Nat) (x : Byte), r[k]? = some x →
        x.toNat = ∑ j ∈ Finset.range 8, (a.getD (8 * k + j) false).toNat * 2 ^ (7 - j))

/-- R58: the two conversions are inverse to each other, in both orders. -/
def Obligations.SerializerRoundTrip : Prop :=
  (∀ (s t s' : State) (b : Bytes), s.aBytes = some b → exec .bytesToBits s = .next t → s'.aBits = t.out.rBits →
    exec .bitsToBytes s' = .next (s'.setOut { Outputs.noValue with status := some 0#3, rBytes := some b })) ∧
  (∀ (s t s' : State) (a : Bits), s.aBits = some a → a.length % 8 = 0 → exec .bitsToBytes s = .next t →
    s'.aBytes = t.out.rBytes →
    exec .bytesToBits s' = .next (s'.setOut { Outputs.noValue with status := some 0#3, rBits := some a }))

/-! ### Padder -/

/-- R59: `PAD`. The zero run is computed as the rule writes it, over the integers. -/
def Obligations.PadRule : Prop :=
  decode 0x0003#16 = .ok .pad ∧
  ∀ (s : State) (a : Bits) (len : Nat), s.aBits = some a → s.n = some len →
    (2 ^ 64 ≤ len → exec .pad s =
      .next (s.setOut { Outputs.noValue with status := some 3#3, errLen := some len })) ∧
    (len < 2 ^ 64 → a.length < len → exec .pad s =
      .next (s.setOut { Outputs.noValue with
        status := some 4#3, errLen := some len, errReq := some len, errAvail := some a.length })) ∧
    (len < 2 ^ 64 → len ≤ a.length → exec .pad s =
      .next (s.setOut { Outputs.noValue with
        status := some 0#3
        rBits := some (a.take len ++ [true] ++ List.replicate ((447 - (len : Int) % 512) % 512).toNat false ++
          (List.range 64).map fun i => len.testBit (63 - i)) }))

/-- R60, R61: the padded sequence is the message, the stop bit, the least run of zeros that reaches 448 modulo 512, and 64
more bits; it fills the real blocks exactly. -/
def Obligations.PadLengthAndLeastZeroRun : Prop :=
  ∀ (s : State) (a : Bits) (len : Nat), s.aBits = some a → s.n = some len → len < 2 ^ 64 → len ≤ a.length →
    ∃ (p : Bits) (k : Nat),
      exec .pad s = .next (s.setOut { Outputs.noValue with status := some 0#3, rBits := some p }) ∧
      p.take (len + 1 + k) = a.take len ++ [true] ++ List.replicate k false ∧
      IsLeast { z : Nat | (len + 1 + z) % 512 = 448 } k ∧ k ≤ 511 ∧
      p.length = len + 65 + k ∧ p.length = 512 * ((len + 64) / 512 + 1) ∧ len + 65 ≤ p.length ∧ p.length ≤ len + 576

/-- R62: each bit of the padded sequence is a selection over four cases that do not overlap. -/
def Obligations.PadBitClosedForm : Prop :=
  ∀ (s : State) (a : Bits) (len e : Nat), s.aBits = some a → s.n = some len → len < 2 ^ 64 → len ≤ a.length →
    e = 512 * ((len + 64) / 512 + 1) →
    len < e - 64 ∧ ∃ p : Bits,
      exec .pad s = .next (s.setOut { Outputs.noValue with status := some 0#3, rBits := some p }) ∧ p.length = e ∧
      (∀ q, q < len → p[q]? = a[q]?) ∧ p[len]? = some true ∧
      (∀ q, len < q → q < e - 64 → p[q]? = some false) ∧
      (∀ q, e - 64 ≤ q → q < e → p[q]? = some (len.testBit (e - 1 - q)))

/-- R64: `PAD` reads only the logical length. -/
def Obligations.PadReadsOnlyLogicalLength : Prop :=
  ∀ (s s' : State) (a a' : Bits) (len : Nat), s.aBits = some a → s'.aBits = some a' → s.n = some len → s'.n = some len →
    len ≤ a.length → len ≤ a'.length → a.take len = a'.take len →
    ∃ o, exec .pad s = .next (s.setOut o) ∧ exec .pad s' = .next (s'.setOut o)

/-- R63: the shape depends on `L mod 512` and the crossing flag: the stop bit lies in block `L/512`, the suffix ends block
`L/512 + X`, and everything between is zero. -/
def Obligations.PadShapeFollowsResidue : Prop :=
  ∀ (s : State) (a : Bits) (len x : Nat), s.aBits = some a → s.n = some len → len < 2 ^ 64 → len ≤ a.length →
    x = (if 448 ≤ len % 512 then 1 else 0) →
    ∃ p : Bits, exec .pad s = .next (s.setOut { Outputs.noValue with status := some 0#3, rBits := some p }) ∧
      p.length = 512 * (len / 512 + 1 + x) ∧ p[512 * (len / 512) + len % 512]? = some true ∧
      (∀ q, len < q → q < 512 * (len / 512 + x) + 448 → p[q]? = some false) ∧
      (∀ i, i < 64 → p[512 * (len / 512 + x) + 448 + i]? = some (len.testBit (63 - i)))

/-! ### BlockSegmenter and CapacityFitter -/

/-- R65: `SEGMENT`. -/
def Obligations.SegmentRule : Prop :=
  decode 0x0004#16 = .ok .segment ∧
  ∀ (s : State) (a : Bits) (w : Nat), s.aBits = some a → s.m = some w →
    (w = 0 → exec .segment s =
      .next (s.setOut { Outputs.noValue with
        status := some 4#3, errLen := some a.length, errReq := some 1, errAvail := some 0 })) ∧
    (1 ≤ w → a.length % w ≠ 0 → exec .segment s =
      .next (s.setOut { Outputs.noValue with status := some 1#3, errLen := some a.length, errReq := some w })) ∧
    (1 ≤ w → a.length % w = 0 → ∃ b : Blocks,
      exec .segment s = .next (s.setOut { Outputs.noValue with status := some 0#3, rBlocks := some b }) ∧
      b.length = a.length / w ∧
      ∀ (i : Nat) (x : Bits), b[i]? = some x → x.length = w ∧ x = (a.drop (w * i)).take w)

/-- R33: chunks are consecutive, do not overlap, have the width exactly, and keep the order. -/
def Obligations.SegmentPreservesOrder : Prop :=
  ∀ (s : State) (a : Bits) (w : Nat), s.aBits = some a → s.m = some w → 1 ≤ w → a.length % w = 0 →
    ∃ b : Blocks, exec .segment s = .next (s.setOut { Outputs.noValue with status := some 0#3, rBlocks := some b }) ∧
      b.flatten = a ∧
      ∀ (i j : Nat) (x : Bits), b[i]? = some x → x.length = w ∧ (j < w → x[j]? = a[w * i + j]?)

/-- R66: `FIT`, with the first wrong width reported by its index. -/
def Obligations.FitRule : Prop :=
  decode 0x0005#16 = .ok .fit ∧
  ∀ (s : State) (b : Blocks) (w : Nat), s.aBlocks = some b → s.m = some w →
    (w = 0 → exec .fit s =
      .next (s.setOut { Outputs.noValue with
        status := some 4#3, errLen := some 0, errReq := some 1, errAvail := some 0 })) ∧
    (∀ (i : Nat) (x : Bits), 1 ≤ w → b[i]? = some x → x.length ≠ w → (∀ y ∈ b.take i, y.length = w) → exec .fit s =
      .next (s.setOut { Outputs.noValue with
        status := some 4#3, errLen := some x.length, errReq := some w, errAvail := some i })) ∧
    (1 ≤ w → (∀ x ∈ b, x.length = w) → s.inst.capacity < b.length → exec .fit s =
      .next (s.setOut { Outputs.noValue with
        status := some 2#3, errLen := some b.length, errReq := some b.length, errAvail := some s.inst.capacity })) ∧
    (1 ≤ w → (∀ x ∈ b, x.length = w) → b.length ≤ s.inst.capacity → exec .fit s =
      .next (s.setOut { Outputs.noValue with
        status := some 0#3
        rBlocks := some (b ++ List.replicate (s.inst.capacity - b.length) (List.replicate w false)) }))

/-- R67: fitting what was fitted gives it again. -/
def Obligations.FitIsIdempotent : Prop :=
  ∀ (s t s' : State) (b : Blocks), exec .fit s = .next t → t.out.rBlocks = some b →
    s'.inst = s.inst → s'.aBlocks = some b → s'.m = s.m →
    exec .fit s' = .next (s'.setOut { Outputs.noValue with status := some 0#3, rBlocks := some b })

/-! ### BlockSpaceSelector -/

/-- R68: `TBLOCK`, for every natural. -/
def Obligations.TblockRule : Prop :=
  decode 0x0006#16 = .ok .tblock ∧
  ∀ (s : State) (len : Nat), s.n = some len →
    exec .tblock s =
      .next (s.setOut { Outputs.noValue with status := some 0#3, rNum := some ((len + 64) / 512 + 1) })

/-- R69: the two forms of `tBlock` agree, and they count the blocks that `PAD` and `SEGMENT` make. -/
def Obligations.TblockMatchesPadAndSegment : Prop :=
  ∀ (s s' : State) (len : Nat), s.n = some len →
    ∃ v : Nat, exec .tblock s = .next (s.setOut { Outputs.noValue with status := some 0#3, rNum := some v }) ∧
      (v : Int) = ⌈((len : Rat) + 65) / 512⌉ ∧
      ∀ (a : Bits) (t : State), s.aBits = some a → len < 2 ^ 64 → len ≤ a.length → exec .pad s = .next t →
        s'.aBits = t.out.rBits → s'.m = some 512 →
        ∃ b : Blocks, exec .segment s' =
          .next (s'.setOut { Outputs.noValue with status := some 0#3, rBlocks := some b }) ∧ b.length = v

/-- R70: `CAPACITY`. -/
def Obligations.CapacityRule : Prop :=
  decode 0x0007#16 = .ok .capacity ∧
  ∀ (s : State) (bs : Nat), s.n = some bs →
    exec .capacity s = .next (s.setOut { Outputs.noValue with status := some 0#3, rNum := some (2 ^ bs) })

/-- R72: `MAXLEN`, with 65 bits taken off (90_conflicts.md C1). -/
def Obligations.MaxlenRule : Prop :=
  decode 0x0008#16 = .ok .maxlen ∧
  ∀ (s : State) (k : Nat), s.n = some k →
    (k = 0 → exec .maxlen s =
      .next (s.setOut { Outputs.noValue with
        status := some 4#3, errLen := some 0, errReq := some 1, errAvail := some 0 })) ∧
    (1 ≤ k → ∃ v : Nat, exec .maxlen s =
      .next (s.setOut { Outputs.noValue with status := some 0#3, rNum := some v }) ∧ v + 65 = 512 * k)

/-- R73: `MAXLEN` of the capacity is the largest length that `FORMAT` and `HASH` accept; one bit more exceeds it. -/
def Obligations.MaxlenIsExactFitBound : Prop :=
  ∀ (s s' : State) (a : Bits) (len v : Nat), s'.n = some s.inst.capacity →
    exec .maxlen s' = .next (s'.setOut { Outputs.noValue with status := some 0#3, rNum := some v }) →
    s.aBits = some a → s.n = some len → len < 2 ^ 64 → len ≤ a.length →
    ∀ i, i = .format ∨ i = .hash →
      (len ≤ v → ∃ t, exec i s = .next t ∧ t.out.status = some 0#3 ∧ (len = v → t.out.rTblock = some s.inst.capacity)) ∧
      (v < len → ∃ t, exec i s = .next t ∧ t.out.status = some 2#3 ∧
        (len = v + 1 → t.out.errReq = some (s.inst.capacity + 1)))

/-- R74: a message of whole bytes fits exactly when it has at most `64C - 9` bytes; `64C - 8` bytes need `C + 1` blocks. -/
def Obligations.ByteMessageBound : Prop :=
  ∀ (s : State) (a : Bits) (n : Nat), s.aBits = some a → s.n = some (8 * n) → 8 * n < 2 ^ 64 → 8 * n ≤ a.length →
    ∃ t, exec .format s = .next t ∧ (t.out.status = some 0#3 ↔ n + 9 ≤ 64 * s.inst.capacity) ∧
      (n + 8 = 64 * s.inst.capacity → t.out.status = some 2#3 ∧ t.out.errReq = some (s.inst.capacity + 1))

/-! ### DigestEngine -/

/-- R76: the chaining values of a block sequence. -/
def Obligations.ChainingValuesFollowCompress : Prop :=
  ∀ (p : Instance) (b : Blocks), ∃ hs : List Word256, hs = chainValues (applyCompressor p.compress) p.iv b ∧
    hs.length = b.length + 1 ∧ hs[0]? = some p.iv ∧
    ∀ (i : Nat) (x : Bits), b[i]? = some x →
      ∃ h, hs[i]? = some h ∧ hs[i + 1]? = some (applyCompressor p.compress h x)

/-- R78: `DIGEST`. `H_t` is written as the fold of `Compress` over the first `t` blocks. -/
def Obligations.DigestRule : Prop :=
  decode 0x0009#16 = .ok .digest ∧
  ∀ (s : State) (b : Blocks) (t : Nat), s.aBlocks = some b → s.n = some t →
    (∀ (i : Nat) (x : Bits), b[i]? = some x → x.length ≠ 512 → (∀ y ∈ b.take i, y.length = 512) → exec .digest s =
      .next (s.setOut { Outputs.noValue with
        status := some 4#3, errLen := some x.length, errReq := some 512, errAvail := some i })) ∧
    ((∀ x ∈ b, x.length = 512) → (t < 1 ∨ b.length < t) → exec .digest s =
      .next (s.setOut { Outputs.noValue with
        status := some 4#3, errLen := some t, errReq := some 1, errAvail := some b.length })) ∧
    ((∀ x ∈ b, x.length = 512) → 1 ≤ t → t ≤ b.length → exec .digest s =
      .next (s.setOut { Outputs.noValue with
        status := some 0#3
        rDigest := some (digestBits ((b.take t).foldl (applyCompressor s.inst.compress) s.inst.iv)) }))

/-- R35: the digest's bits are the eight words in order, each most significant bit first, so that its bytes are the words'
bytes in big-endian order. -/
def Obligations.DigestBitOrder : Prop :=
  ∀ h : Word256, (digestBits h).length = 256 ∧
    (∀ (a c : Nat) (w : Word), h.words[a]? = some w → c < 32 →
      (digestBits h)[32 * a + c]? = some (w.toNat.testBit (31 - c))) ∧
    ∀ s : State, s.aBits = some (digestBits h) → exec .bitsToBytes s =
      .next (s.setOut { Outputs.noValue with
        status := some 0#3
        rBytes := some (h.words.flatMap fun w =>
          [BitVec.ofNat 8 (w.toNat / 2 ^ 24), BitVec.ofNat 8 (w.toNat / 2 ^ 16), BitVec.ofNat 8 (w.toNat / 2 ^ 8),
            BitVec.ofNat 8 w.toNat]) })

/-- R77: the fixed-shape multiplexer over the chaining values `H_1 … H_n` outputs `bits(H_t)`, and it is what `DIGEST`
writes. -/
def Obligations.DigestIsFixedShapeMultiplexer : Prop :=
  ∀ (s : State) (b : Blocks) (t : Nat), s.aBlocks = some b → s.n = some t → (∀ x ∈ b, x.length = 512) → 1 ≤ t →
    t ≤ b.length →
    ∃ (hs : List Word256) (h : Word256), hs = chainValues (applyCompressor s.inst.compress) s.inst.iv b ∧
      hs[t]? = some h ∧ (∀ q, q < 256 → (digestBits h)[q]? = some (muxBit hs t q)) ∧
      exec .digest s =
        .next (s.setOut { Outputs.noValue with status := some 0#3, rDigest := some (muxBits hs t) })

/-- R79: blocks at index `t` or above do not change the digest. -/
def Obligations.DigestIgnoresFillerBlocks : Prop :=
  ∀ (s s' : State) (b b' : Blocks) (t : Nat), s.aBlocks = some b → s'.aBlocks = some b' → s.n = some t → s'.n = some t →
    s'.inst.iv = s.inst.iv → s'.inst.compress = s.inst.compress →
    (∀ x ∈ b, x.length = 512) → (∀ x ∈ b', x.length = 512) → 1 ≤ t → t ≤ b.length → t ≤ b'.length →
    b.take t = b'.take t →
    ∃ o, exec .digest s = .next (s.setOut o) ∧ exec .digest s' = .next (s'.setOut o) ∧ o.status = some 0#3

/-! ### The composed datapath -/

/-- R80: `FORMAT`, its checks in order, and its blocks. -/
def Obligations.FormatRule : Prop :=
  decode 0x000A#16 = .ok .format ∧
  ∀ (s : State) (a p : Bits) (len tb : Nat), s.aBits = some a → s.n = some len → tb = (len + 64) / 512 + 1 →
    p = a.take len ++ [true] ++ List.replicate ((447 - (len : Int) % 512) % 512).toNat false ++
      (List.range 64).map (fun i => len.testBit (63 - i)) →
    (2 ^ 64 ≤ len → exec .format s =
      .next (s.setOut { Outputs.noValue with status := some 3#3, errLen := some len })) ∧
    (len < 2 ^ 64 → s.inst.capacity < tb → exec .format s =
      .next (s.setOut { Outputs.noValue with
        status := some 2#3, errLen := some len, errReq := some tb, errAvail := some s.inst.capacity })) ∧
    (len < 2 ^ 64 → tb ≤ s.inst.capacity → a.length < len → exec .format s =
      .next (s.setOut { Outputs.noValue with
        status := some 4#3, errLen := some len, errReq := some len, errAvail := some a.length })) ∧
    (len < 2 ^ 64 → tb ≤ s.inst.capacity → len ≤ a.length → ∃ b : Blocks,
      exec .format s =
        .next (s.setOut { Outputs.noValue with status := some 0#3, rBlocks := some b, rTblock := some tb }) ∧
      b.length = s.inst.capacity ∧
      (∀ i, i < tb → b[i]? = some ((p.drop (512 * i)).take 512)) ∧
      (∀ i, tb ≤ i → i < s.inst.capacity → b[i]? = some (List.replicate 512 false)))

/-- R81, R17: `FORMAT` is the fixed-shape datapath: every bit of the `512*C`-bit buffer is a selection over five cases. -/
def Obligations.FormatIsFixedShapeDatapath : Prop :=
  ∀ (s : State) (a : Bits) (len e : Nat), s.aBits = some a → s.n = some len → len < 2 ^ 64 →
    (len + 64) / 512 + 1 ≤ s.inst.capacity → len ≤ a.length → e = 512 * ((len + 64) / 512 + 1) →
    ∃ b : Blocks,
      exec .format s =
        .next (s.setOut { Outputs.noValue with
          status := some 0#3, rBlocks := some b, rTblock := some ((len + 64) / 512 + 1) }) ∧
      b = fixedFormatBlocks s.inst.capacity a len ∧
      ∀ q, q < 512 * s.inst.capacity → ∃ x : Bits, b[q / 512]? = some x ∧
        x[q % 512]? = some (if q < len then a.getD q false
          else if q = len then true
          else if q < e - 64 then false
          else if q < e then len.testBit (e - 1 - q)
          else false)

/-- R84: real and filler blocks after a `FORMAT` that gives `OK`. -/
def Obligations.FormatRealAndFillerBlocks : Prop :=
  ∀ (s t : State) (len : Nat), s.n = some len → exec .format s = .next t → t.out.status = some 0#3 →
    ∃ (b : Blocks) (tb : Nat), t.out.rBlocks = some b ∧ t.out.rTblock = some tb ∧ 1 ≤ tb ∧ tb ≤ s.inst.capacity ∧
      b.length = s.inst.capacity ∧ (∀ x ∈ b, x.length = 512) ∧
      (∀ i, tb ≤ i → i < s.inst.capacity → b[i]? = some (List.replicate 512 false)) ∧
      (∃ x, b[len / 512]? = some x ∧ x[len % 512]? = some true) ∧
      (∃ x, b[tb - 1]? = some x ∧ ∀ i, i < 64 → x[448 + i]? = some (len.testBit (63 - i)))

/-- R80, the source's data flow: `FORMAT` is `PAD`, then `SEGMENT` at 512, then `FIT` at 512. -/
def Obligations.FormatIsPadSegmentFit : Prop :=
  ∀ (s s2 s3 t1 t2 t3 : State) (len : Nat) (a : Bits), s.n = some len → s.aBits = some a →
    exec .pad s = .next t1 → t1.out.status = some 0#3 →
    s2.aBits = t1.out.rBits → s2.m = some 512 → exec .segment s2 = .next t2 →
    s3.inst = s.inst → s3.aBlocks = t2.out.rBlocks → s3.m = some 512 → exec .fit s3 = .next t3 →
    t2.out.status = some 0#3 ∧
    (t3.out.status = some 0#3 → exec .format s =
      .next (s.setOut { Outputs.noValue with
        status := some 0#3, rBlocks := t3.out.rBlocks, rTblock := some ((len + 64) / 512 + 1) })) ∧
    (t3.out.status ≠ some 0#3 → ∃ u, exec .format s = .next u ∧ t3.out.status = some 2#3 ∧
      u.out.status = some 2#3 ∧ u.out.errReq = t3.out.errReq ∧ u.out.errAvail = t3.out.errAvail)

/-- R82: `HASH` raises exactly what `FORMAT` raises; otherwise it chains over `FORMAT`'s blocks and writes `bits(H_T)` and
`T`, and not the blocks. -/
def Obligations.HashRule : Prop :=
  decode 0x000B#16 = .ok .hash ∧
  ∀ (s : State) (a : Bits) (len : Nat), s.aBits = some a → s.n = some len →
    ∃ o, exec .format s = .next (s.setOut o) ∧
      (o.status ≠ some 0#3 → exec .hash s = .next (s.setOut o)) ∧
      (o.status = some 0#3 → ∃ (b : Blocks) (tb : Nat), o.rBlocks = some b ∧ o.rTblock = some tb ∧
        exec .hash s =
          .next (s.setOut { Outputs.noValue with
            status := some 0#3
            rDigest := some (digestBits ((b.take tb).foldl (applyCompressor s.inst.compress) s.inst.iv))
            rTblock := some tb }))

/-- `HASH` is `FORMAT` followed by `DIGEST` on its two results (95_test_vectors.md P1, from R82). -/
def Obligations.HashIsFormatThenDigest : Prop :=
  ∀ (s t s' : State), exec .format s = .next t → t.out.status = some 0#3 → s'.inst = s.inst →
    s'.aBlocks = t.out.rBlocks → s'.n = t.out.rTblock →
    ∃ u v, exec .digest s' = .next u ∧ exec .hash s = .next v ∧ u.out.status = some 0#3 ∧ v.out.status = some 0#3 ∧
      v.out.rDigest = u.out.rDigest ∧ v.out.rDigest.isSome ∧ v.out.rTblock = t.out.rTblock

/-- R17, R79, R82: `HASH` is its fixed shape, in which every block is compressed, fillers too, and the multiplexer picks
`H_T`. -/
def Obligations.HashIsFixedShapeDatapath : Prop :=
  ∀ (s : State) (a : Bits) (len : Nat), s.aBits = some a → s.n = some len → len < 2 ^ 64 →
    (len + 64) / 512 + 1 ≤ s.inst.capacity → len ≤ a.length →
    exec .hash s =
      .next (s.setOut { Outputs.noValue with
        status := some 0#3
        rDigest := some (fixedHashBits s.inst a len)
        rTblock := some ((len + 64) / 512 + 1) })

/-- R82: on instances with the same `IV` and `Compress`, the digest is the same for every capacity that holds the message. -/
def Obligations.HashDoesNotDependOnCapacity : Prop :=
  ∀ (s s' : State) (a : Bits) (len : Nat), s.aBits = some a → s'.aBits = some a → s.n = some len → s'.n = some len →
    s'.inst.iv = s.inst.iv → s'.inst.compress = s.inst.compress → len < 2 ^ 64 → len ≤ a.length →
    (len + 64) / 512 + 1 ≤ s.inst.capacity → (len + 64) / 512 + 1 ≤ s'.inst.capacity →
    ∃ o, exec .hash s = .next (s.setOut o) ∧ exec .hash s' = .next (s'.setOut o) ∧ o.status = some 0#3

/-- R83, with the standard `IV` and `Compress` and the reference digest of 93_implementation_defined.md section 2 (PRESUMED,
log entry 2). The rule leaves `8*len(m) < 2^64` unsaid; R59 makes it necessary. -/
def Obligations.HashEqualsReferenceSha256 : Prop :=
  ∀ (s : State) (m : Bytes), s.inst.iv = Sha256.iv → s.inst.compress = .standard →
    s.aBits = some (bytesToBits m) → s.n = some (8 * m.length) → 8 * m.length < 2 ^ 64 →
    8 * m.length + 65 ≤ 512 * s.inst.capacity →
    ∃ d : Bits,
      exec .hash s =
        .next (s.setOut { Outputs.noValue with
          status := some 0#3, rDigest := some d, rTblock := some ((8 * m.length + 64) / 512 + 1) }) ∧
      ∀ s' : State, s'.aBits = some d → exec .bitsToBytes s' =
        .next (s'.setOut { Outputs.noValue with status := some 0#3, rBytes := some (referenceSha256 m) })

/-- R53, R83: from any state of an instance with the standard `IV` and `Compress` and unbounded ports, the pseudo-operation
`SHA256` ends three steps later with the reference digest on `R_BYTES` and nothing else but `OK`. The standard function is
PRESUMED (log entry 2). -/
def Obligations.Sha256MacroComputesReferenceDigest : Prop :=
  ∀ (s : State) (m : Bytes) (rest : List HostEvent), s.inst.iv = Sha256.iv → s.inst.compress = .standard →
    s.inst.unbounded → 8 * m.length < 2 ^ 64 → 8 * m.length + 65 ≤ 512 * s.inst.capacity →
    s.host = runAll (expand (.sha256 m)) ++ rest →
    ∃ t : State, Host.Core.run Sys2Proof.core 3 s = .next t ∧ t.host = rest ∧ t.inst = s.inst ∧
      t.out = { Outputs.noValue with status := some 0#3, rBytes := some (referenceSha256 m) }

/-- R53, R69: the pseudo-operation `PADSEG` gives as many blocks as `TBLOCK` counts, and together they are the padded
message. -/
def Obligations.PadsegMacroGivesUnfittedBlocks : Prop :=
  ∀ (s : State) (a : Bits) (len : Nat) (rest : List HostEvent), s.inst.unbounded → len < 2 ^ 64 → len ≤ a.length →
    s.host = runAll (expand (.padseg a len)) ++ rest →
    ∃ (t : State) (b : Blocks), Host.Core.run Sys2Proof.core 2 s = .next t ∧ t.host = rest ∧
      t.out = { Outputs.noValue with status := some 0#3, rBlocks := some b } ∧
      b.length = (len + 64) / 512 + 1 ∧ b.flatten = padded a len

/-! ### Errors and the output ports -/

/-- R93: which operation can report which status, and each marked status is reported somewhere. -/
def Obligations.StatusTable : Prop :=
  (∀ (i : Instr) (s t : State), exec i s = .next t → ∃ e, mayReport i e = true ∧ t.out.status = some e.code) ∧
  (∀ (i : Instr) (e : Status), mayReport i e = true → ∃ s t : State, exec i s = .next t ∧ t.out.status = some e.code)

/-- R87, R25, R49: a transaction ends with `OK`, exactly the result ports of its operation and no error context, or with
another code, an offending length and no result at all. -/
def Obligations.ResultsOrErrorNeverBoth : Prop :=
  ∀ (i : Instr) (s t : State), exec i s = .next t →
    (t.out.status = some 0#3 ∧ (∀ r, t.out.holdsResult r = writesPort i r) ∧ t.out.errLen = none ∧ t.out.errReq = none ∧
      t.out.errAvail = none) ∨
    (t.out.status ≠ some 0#3 ∧ t.out.status.isSome ∧ (∀ r, t.out.holdsResult r = false) ∧ t.out.errLen.isSome)

/-- R88: who raises `AlignmentError`, when, and with what context. -/
def Obligations.AlignmentErrorCauses : Prop :=
  ∀ (i : Instr) (s t : State), exec i s = .next t → ∀ l r v,
    (t.out = { Outputs.noValue with status := some 1#3, errLen := l, errReq := r, errAvail := v } ↔
      v = none ∧
      ((i = .bitsToBytes ∧ ∃ a, s.aBits = some a ∧ a.length % 8 ≠ 0 ∧ l = some a.length ∧ r = some 8) ∨
       (i = .segment ∧ ∃ a w, s.aBits = some a ∧ s.m = some w ∧ 1 ≤ w ∧ a.length % w ≠ 0 ∧ l = some a.length ∧
         r = some w)))

/-- R89 (with the order of R94): who raises `CapacityExceededError`, when, and with what context. -/
def Obligations.CapacityExceededCauses : Prop :=
  ∀ (i : Instr) (s t : State), exec i s = .next t → ∀ l r v,
    (t.out = { Outputs.noValue with status := some 2#3, errLen := l, errReq := r, errAvail := v } ↔
      v = some s.inst.capacity ∧
      ((i = .fit ∧ ∃ b w, s.aBlocks = some b ∧ s.m = some w ∧ 1 ≤ w ∧ (∀ x ∈ b, x.length = w) ∧
         s.inst.capacity < b.length ∧ l = some b.length ∧ r = some b.length) ∨
       ((i = .format ∨ i = .hash) ∧ ∃ len, s.n = some len ∧ len < 2 ^ 64 ∧
         s.inst.capacity < (len + 64) / 512 + 1 ∧ l = some len ∧ r = some ((len + 64) / 512 + 1))))

/-- R90: who raises `LengthOverflowError`, when, and with what context. -/
def Obligations.LengthOverflowCauses : Prop :=
  ∀ (i : Instr) (s t : State), exec i s = .next t → ∀ l r v,
    (t.out = { Outputs.noValue with status := some 3#3, errLen := l, errReq := r, errAvail := v } ↔
      r = none ∧ v = none ∧ (i = .pad ∨ i = .format ∨ i = .hash) ∧ ∃ len, s.n = some len ∧ 2 ^ 64 ≤ len ∧ l = some len)

/-- R92 (with the order of R94): who raises `PreconditionViolation`, when, and with what context. -/
def Obligations.PreconditionCauses : Prop :=
  ∀ (i : Instr) (s t : State), exec i s = .next t → ∀ l r v,
    (t.out = { Outputs.noValue with status := some 4#3, errLen := some l, errReq := some r, errAvail := some v } ↔
      (∃ a len, s.aBits = some a ∧ s.n = some len ∧ len < 2 ^ 64 ∧ a.length < len ∧ l = len ∧ r = len ∧ v = a.length ∧
        (i = .pad ∨ ((i = .format ∨ i = .hash) ∧ (len + 64) / 512 + 1 ≤ s.inst.capacity))) ∨
      (i = .segment ∧ s.m = some 0 ∧ ∃ a, s.aBits = some a ∧ l = a.length ∧ r = 1 ∧ v = 0) ∨
      (i = .fit ∧ s.m = some 0 ∧ l = 0 ∧ r = 1 ∧ v = 0) ∨
      (∃ (b : Blocks) (x : Bits), s.aBlocks = some b ∧ b[v]? = some x ∧ x.length = l ∧ l ≠ r ∧
        (∀ y ∈ b.take v, y.length = r) ∧ ((i = .fit ∧ s.m = some r ∧ 1 ≤ r) ∨ (i = .digest ∧ r = 512))) ∨
      (i = .digest ∧ ∃ (b : Blocks), s.aBlocks = some b ∧ (∀ y ∈ b, y.length = 512) ∧ s.n = some l ∧ r = 1 ∧
        v = b.length ∧ (l < 1 ∨ b.length < l)) ∨
      (i = .maxlen ∧ s.n = some 0 ∧ l = 0 ∧ r = 1 ∧ v = 0))

/-! ### Frames, completion and independence -/

/-- What every operation leaves unchanged: the parameters, the input ports and what the host will do; only the output ports
are written (R18, R20, R24). There is no register, flag or memory beside them (R18, R28). -/
def Obligations.ExecFrame : Prop :=
  ∀ (i : Instr) (s t : State), exec i s = .next t →
    t.inst = s.inst ∧ t.cmd = s.cmd ∧ t.aBits = s.aBits ∧ t.aBytes = s.aBytes ∧ t.aBlocks = s.aBlocks ∧ t.n = s.n ∧
      t.m = s.m ∧ t.host = s.host

/-- R101, R49: an operation completes exactly when the host drives every port it reads; an undriven one is a fault that names
it (log entry 4, the model's choice). -/
def Obligations.ExecCompletesExactlyWhenOperandsDriven : Prop :=
  ∀ (i : Instr) (s : State),
    (s.presents i → ∃ o, exec i s = .next (s.setOut o)) ∧
    (¬ s.presents i → ∃ p, readsPort i p = true ∧ s.drives p = false ∧ exec i s = .fault (.operandAbsent p))

/-- R50: a port that R49 does not list for the operation is ignored: neither its value nor whether it has one changes the
outcome. -/
def Obligations.UnreadPortsAreIgnored : Prop :=
  ∀ (i : Instr) (s s' : State), s'.inst = s.inst → (∀ p, readsPort i p = true → State.agreeOn p s s') →
    (∀ o, exec i s = .next (s.setOut o) → exec i s' = .next (s'.setOut o)) ∧
    (∀ f, exec i s = .fault f → exec i s' = .fault f)

/-- R19, R38: the outcome of a transaction that copies nothing is a function of its command word, its operands and the
parameters: whatever came before, it gives the same outputs, or stops in the same way. Presenting it again gives them
again. -/
def Obligations.OutcomeIndependentOfEarlierTransactions : Prop :=
  ∀ (s s' : State) (t : Transaction) (rest rest' : List HostEvent), t.selfContained → s'.inst = s.inst →
    s.host = .run t :: rest → s'.host = .run t :: rest' →
    (∀ u, step s = .next u → ∃ u', step s' = .next u' ∧ u'.out = u.out) ∧
    (∀ f, step s = .fault f → step s' = .fault f) ∧ (∀ r, step s = .refused r → step s' = .refused r) ∧
    (∀ u rest'', step s = .next u → rest = .run t :: rest'' → ∃ v, step u = .next v ∧ v.out = u.out)

/-! ### Invariant -/

/-- R25, R84, R86, R87: every step keeps the output ports legal: no value at all, or `OK` with one operation's results, or
one of the five error codes with a context and no result; codes 6 and 7 never occur; a digest has 256 bits, a real-block
count lies in `1..C`, and blocks beside it are `C` blocks of 512 bits, zero from the count on. -/
def Obligations.StepKeepsInvariant : Prop :=
  ∀ s t : State, s.Inv → step s = .next t → t.Inv

/-- The invariant holds after reset, on every instance. -/
def Obligations.ResetHasInvariant : Prop :=
  (∀ p, (State.resetOf p).Inv) ∧ State.reset.Inv

/-- R86, U7: in a state that meets the invariant, `STATUS` holds no value or one of the codes 0 to 5. -/
def Obligations.InvariantExcludesReservedStatus : Prop :=
  ∀ s : State, s.Inv → ∀ c, s.out.status = some c → c.toNat ≤ 5 ∧ (c.toNat ≠ 0 → ∀ r, s.out.holdsResult r = false)

/-! ### The boundary -/

/-- R10, R25: on an instance with unbounded ports, the model of the spec, no step is refused. On every instance a step faults
only on a port that holds no value: a result port that the presented transaction copies (R25; also where the operation does
not read the copy, log entry 7), or an operand port that its operation reads and the host does not drive (log entry 4, the
model's choice). -/
def Obligations.UnboundedPortsNeverRefuse : Prop :=
  (∀ s : State, s.inst.unbounded → ∀ r, step s ≠ .refused r) ∧
  (∀ (s : State) (f : Fault), step s = .fault f → ∃ (t : Transaction) (rest : List HostEvent), s.host = .run t :: rest ∧
    ((∃ r, f = .resultAbsent r ∧ t.copies r ∧ s.out.holdsResult r = false) ∨
     (∃ p i s', f = .operandAbsent p ∧ decode t.cmd = .ok i ∧ readsPort i p = true ∧
       present t (s.setHost rest) = .ok s' ∧ s'.drives p = false)))

/-- D14, U12: a transaction whose operand or result does not fit the instance's ports is refused, and one whose operands and
result fit has its effect. What fits is the model's choice (log entry 8): `LEN_WIDTH` bounds the number ports, so a number does
not fit from `2^LEN_WIDTH` on; `BUS_BITS` bounds the sequence ports, so a sequence does not fit with more bits, eight for each
byte, and those of all its blocks together; only operands the operation reads are looked at; and they come before the result. -/
def Obligations.TooWideOperandIsRefused : Prop :=
  ∀ (i : Instr) (s : State),
    ((∃ p, readsPort i p = true ∧ s.operandFits p = false) ↔ ∃ p, execChecked i s = .refused (.operandTooWide p)) ∧
    (∀ v, s.n = some v → (s.operandFits .n = false ↔ ∃ k, s.inst.lenWidth = some k ∧ 2 ^ k ≤ v)) ∧
    (∀ v, s.m = some v → (s.operandFits .m = false ↔ ∃ k, s.inst.lenWidth = some k ∧ 2 ^ k ≤ v)) ∧
    (∀ a, s.aBits = some a → (s.operandFits .aBits = false ↔ ∃ k, s.inst.busBits = some k ∧ k < a.length)) ∧
    (∀ b, s.aBytes = some b → (s.operandFits .aBytes = false ↔ ∃ k, s.inst.busBits = some k ∧ k < 8 * b.length)) ∧
    (∀ b, s.aBlocks = some b →
      (s.operandFits .aBlocks = false ↔ ∃ k, s.inst.busBits = some k ∧ k < b.flatten.length)) ∧
    (∀ t, execChecked i s = .next t ↔ (∀ p, readsPort i p = true → s.operandFits p = true) ∧ exec i s = .next t ∧
      outputsFit s.inst t.out = true) ∧
    (execChecked i s = .refused .resultTooWide ↔ (∀ p, readsPort i p = true → s.operandFits p = true) ∧
      ∃ t, exec i s = .next t ∧ outputsFit s.inst t.out = false) ∧
    (∀ w e, decode w = .error e →
      (transact w s = .refused .resultTooWide ↔ ∃ k, s.inst.lenWidth = some k ∧ 2 ^ k ≤ w.toNat)) ∧
    (∀ o : Outputs, outputsFit s.inst o = false ↔
      (∃ k v, s.inst.lenWidth = some k ∧ 2 ^ k ≤ v ∧ (o.rNum = some v ∨ o.rTblock = some v ∨ o.errLen = some v ∨
        o.errReq = some v ∨ o.errAvail = some v)) ∨
      (∃ k, s.inst.busBits = some k ∧ ((∃ a, (o.rBits = some a ∨ o.rDigest = some a) ∧ k < a.length) ∨
        (∃ b, o.rBytes = some b ∧ k < 8 * b.length) ∨ (∃ b, o.rBlocks = some b ∧ k < b.flatten.length))))

/-- R52, R54, R55, R31: the assembler accepts exactly the valid textual transactions (known mnemonic, input ports only, none
named twice, values of a form the port takes); their command word is the operation's, or the one written; each named port is
driven with what its value form means, and no other port is driven. Which copies a port takes, and that the elements of a
block list are literals, is the model's choice (log entry 13). -/
def Obligations.AssemblerAcceptsExactlyValidText : Prop :=
  (∀ t : TextTransaction,
    ((∃ u, assemble t = .ok u) ↔ t.wf = true) ∧
    (∀ u, assemble t = .ok u →
      (∀ name, t.head = .op name → ∃ i, i.mnemonic = name ∧ u.cmd = encode i) ∧ (∀ w, t.head = .cmd w → u.cmd = w) ∧
      (∀ q, ("A_BITS", .seq q) ∈ t.args → u.aBits = some (.value (textBits q))) ∧
      (∀ q, ("A_BYTES", .seq q) ∈ t.args → u.aBytes = some (.value (textBytes q))) ∧
      (∀ qs, ("A_BLOCKS", .list qs) ∈ t.args → u.aBlocks = some (.value (qs.map textBits))) ∧
      (∀ v, ("N", .num v) ∈ t.args → u.n = some (.value v)) ∧ (∀ v, ("M", .num v) ∈ t.args → u.m = some (.value v)) ∧
      (("A_BITS", .result .rBits) ∈ t.args → u.aBits = some .rBits) ∧
      (("A_BITS", .result .rDigest) ∈ t.args → u.aBits = some .rDigest) ∧
      (("A_BYTES", .result .rBytes) ∈ t.args → u.aBytes = some .rBytes) ∧
      (("A_BLOCKS", .result .rBlocks) ∈ t.args → u.aBlocks = some .rBlocks) ∧
      (("N", .result .rNum) ∈ t.args → u.n = some .rNum) ∧ (("N", .result .rTblock) ∈ t.args → u.n = some .rTblock) ∧
      (("M", .result .rNum) ∈ t.args → u.m = some .rNum) ∧ (("M", .result .rTblock) ∈ t.args → u.m = some .rTblock) ∧
      ("A_BITS" ∉ t.args.map Prod.fst → u.aBits = none) ∧ ("A_BYTES" ∉ t.args.map Prod.fst → u.aBytes = none) ∧
      ("A_BLOCKS" ∉ t.args.map Prod.fst → u.aBlocks = none) ∧ ("N" ∉ t.args.map Prod.fst → u.n = none) ∧
      ("M" ∉ t.args.map Prod.fst → u.m = none))) ∧
  (∀ s, textBits (.bin s) = s) ∧ (∀ n, textBits (.zeros n) = List.replicate n false) ∧ (∀ b, textBytes (.hex b) = b) ∧
  (∀ c, isAscii c = true → (textBytes (.ascii c)).map BitVec.toNat = c.map Char.toNat) ∧
  (∀ c n, textBytes (.rep c n) = (List.replicate n (textBytes (.ascii c))).flatten) ∧
  (∀ q : TextSeq, q.givesBytes = true → (textBits q).length = 8 * (textBytes q).length ∧
    ∀ (k j : Nat) (x : Byte), (textBytes q)[k]? = some x → j < 8 →
      (textBits q)[8 * k + j]? = some (x.toNat.testBit (7 - j)))

/-- R23: a raw transaction passes the boundary exactly when every slot lies in its range; a bit slot other than 0 and 1 is
refused by name. -/
def Obligations.BoundaryAdmitsExactlyRangedSlots : Prop :=
  ∀ t : RawTransaction,
    ((∃ u, admitRaw t = .ok u) ↔ t.wf = true) ∧
    (∀ a v, t.cmd < 2 ^ 16 → t.aBits = some a → v ∈ a → 1 < v → admitRaw t = .error (.slotNotBinary .aBits)) ∧
    (∀ u a, admitRaw t = .ok u → t.aBits = some a → u.aBits = some (.value (a.map fun v => decide (v = 1))))
end

