-- ==== Sys2Proof/Laws/State.lean ====
section
/-! SUPPORT. One lemma per field per update of the state and of the output ports, each true by unfolding once. -/

namespace Sys2Proof.Machine

@[simp] theorem State.setOut_inst (s : State) (o : Outputs) : (s.setOut o).inst = s.inst := rfl
@[simp] theorem State.setOut_cmd (s : State) (o : Outputs) : (s.setOut o).cmd = s.cmd := rfl
@[simp] theorem State.setOut_aBits (s : State) (o : Outputs) : (s.setOut o).aBits = s.aBits := rfl
@[simp] theorem State.setOut_aBytes (s : State) (o : Outputs) : (s.setOut o).aBytes = s.aBytes := rfl
@[simp] theorem State.setOut_aBlocks (s : State) (o : Outputs) : (s.setOut o).aBlocks = s.aBlocks := rfl
@[simp] theorem State.setOut_n (s : State) (o : Outputs) : (s.setOut o).n = s.n := rfl
@[simp] theorem State.setOut_m (s : State) (o : Outputs) : (s.setOut o).m = s.m := rfl
@[simp] theorem State.setOut_out (s : State) (o : Outputs) : (s.setOut o).out = o := rfl
@[simp] theorem State.setOut_host (s : State) (o : Outputs) : (s.setOut o).host = s.host := rfl
@[simp] theorem State.setOut_setOut (s : State) (o o' : Outputs) : (s.setOut o).setOut o' = s.setOut o' := rfl

@[simp] theorem State.setHost_inst (s : State) (h : List HostEvent) : (s.setHost h).inst = s.inst := rfl
@[simp] theorem State.setHost_cmd (s : State) (h : List HostEvent) : (s.setHost h).cmd = s.cmd := rfl
@[simp] theorem State.setHost_aBits (s : State) (h : List HostEvent) : (s.setHost h).aBits = s.aBits := rfl
@[simp] theorem State.setHost_aBytes (s : State) (h : List HostEvent) : (s.setHost h).aBytes = s.aBytes := rfl
@[simp] theorem State.setHost_aBlocks (s : State) (h : List HostEvent) : (s.setHost h).aBlocks = s.aBlocks := rfl
@[simp] theorem State.setHost_n (s : State) (h : List HostEvent) : (s.setHost h).n = s.n := rfl
@[simp] theorem State.setHost_m (s : State) (h : List HostEvent) : (s.setHost h).m = s.m := rfl
@[simp] theorem State.setHost_out (s : State) (h : List HostEvent) : (s.setHost h).out = s.out := rfl
@[simp] theorem State.setHost_host (s : State) (h : List HostEvent) : (s.setHost h).host = h := rfl

@[simp] theorem State.assertReset_inst (s : State) : s.assertReset.inst = s.inst := rfl
@[simp] theorem State.assertReset_out (s : State) : s.assertReset.out = Outputs.noValue := rfl
@[simp] theorem State.assertReset_host (s : State) : s.assertReset.host = s.host := rfl

@[simp] theorem State.resetOf_inst (p : Instance) : (State.resetOf p).inst = p := rfl
@[simp] theorem State.resetOf_out (p : Instance) : (State.resetOf p).out = Outputs.noValue := rfl
@[simp] theorem State.resetOf_host (p : Instance) : (State.resetOf p).host = [] := rfl

@[simp] theorem Outputs.noValue_status : Outputs.noValue.status = none := rfl
@[simp] theorem Outputs.noValue_rBits : Outputs.noValue.rBits = none := rfl
@[simp] theorem Outputs.noValue_rBytes : Outputs.noValue.rBytes = none := rfl
@[simp] theorem Outputs.noValue_rBlocks : Outputs.noValue.rBlocks = none := rfl
@[simp] theorem Outputs.noValue_rNum : Outputs.noValue.rNum = none := rfl
@[simp] theorem Outputs.noValue_rTblock : Outputs.noValue.rTblock = none := rfl
@[simp] theorem Outputs.noValue_rDigest : Outputs.noValue.rDigest = none := rfl
@[simp] theorem Outputs.noValue_errLen : Outputs.noValue.errLen = none := rfl
@[simp] theorem Outputs.noValue_errReq : Outputs.noValue.errReq = none := rfl
@[simp] theorem Outputs.noValue_errAvail : Outputs.noValue.errAvail = none := rfl

@[simp] theorem Outputs.success_status : Outputs.success.status = some 0#3 := rfl
@[simp] theorem Outputs.success_rBits : Outputs.success.rBits = none := rfl
@[simp] theorem Outputs.success_rBytes : Outputs.success.rBytes = none := rfl
@[simp] theorem Outputs.success_rBlocks : Outputs.success.rBlocks = none := rfl
@[simp] theorem Outputs.success_rNum : Outputs.success.rNum = none := rfl
@[simp] theorem Outputs.success_rTblock : Outputs.success.rTblock = none := rfl
@[simp] theorem Outputs.success_rDigest : Outputs.success.rDigest = none := rfl
@[simp] theorem Outputs.success_errLen : Outputs.success.errLen = none := rfl
@[simp] theorem Outputs.success_errReq : Outputs.success.errReq = none := rfl
@[simp] theorem Outputs.success_errAvail : Outputs.success.errAvail = none := rfl

section raised
variable (e : Status) (l r v : Option Nat)
@[simp] theorem raise_status : (raise e l r v).status = some e.code := rfl
@[simp] theorem raise_rBits : (raise e l r v).rBits = none := rfl
@[simp] theorem raise_rBytes : (raise e l r v).rBytes = none := rfl
@[simp] theorem raise_rBlocks : (raise e l r v).rBlocks = none := rfl
@[simp] theorem raise_rNum : (raise e l r v).rNum = none := rfl
@[simp] theorem raise_rTblock : (raise e l r v).rTblock = none := rfl
@[simp] theorem raise_rDigest : (raise e l r v).rDigest = none := rfl
@[simp] theorem raise_errLen : (raise e l r v).errLen = l := rfl
@[simp] theorem raise_errReq : (raise e l r v).errReq = r := rfl
@[simp] theorem raise_errAvail : (raise e l r v).errAvail = v := rfl
end raised

/-- An error leaves every result port without a value (60_exceptions.md R87). -/
theorem raise_holdsResult (e : Status) (l r v : Option Nat) (p : ResultPort) : (raise e l r v).holdsResult p = false := by
  cases p <;> rfl

/-- Distinct statuses have distinct codes. -/
theorem Status.code_injective {a b : Status} (h : a.code = b.code) : a = b := by
  revert h; cases a <;> cases b <;> decide

end Sys2Proof.Machine
end

