-- ==== Sys2Proof/Laws/Ops.lean ====
section
/-! SUPPORT. What each shared operation can do, said once: the end of a transaction, the operand readers, the host's
copies, and the checks around an operation. -/

namespace Sys2Proof.Machine

@[simp] theorem finish_eq (s : State) (o : Outputs) : s.finish o = .next (s.setOut o) := rfl

@[simp] theorem withBits_some {s : State} {a : Bits} (h : s.aBits = some a) (k : Bits → Result) : withBits s k = k a := by
  simp [withBits, h]
@[simp] theorem withBytes_some {s : State} {a : Bytes} (h : s.aBytes = some a) (k : Bytes → Result) :
    withBytes s k = k a := by
  simp [withBytes, h]
@[simp] theorem withBlocks_some {s : State} {a : Blocks} (h : s.aBlocks = some a) (k : Blocks → Result) :
    withBlocks s k = k a := by
  simp [withBlocks, h]
@[simp] theorem withN_some {s : State} {v : Nat} (h : s.n = some v) (k : Nat → Result) : withN s k = k v := by
  simp [withN, h]
@[simp] theorem withM_some {s : State} {v : Nat} (h : s.m = some v) (k : Nat → Result) : withM s k = k v := by
  simp [withM, h]

@[simp] theorem withBits_none {s : State} (h : s.aBits = none) (k : Bits → Result) :
    withBits s k = .fault (.operandAbsent .aBits) := by
  simp [withBits, h]
@[simp] theorem withBytes_none {s : State} (h : s.aBytes = none) (k : Bytes → Result) :
    withBytes s k = .fault (.operandAbsent .aBytes) := by
  simp [withBytes, h]
@[simp] theorem withBlocks_none {s : State} (h : s.aBlocks = none) (k : Blocks → Result) :
    withBlocks s k = .fault (.operandAbsent .aBlocks) := by
  simp [withBlocks, h]
@[simp] theorem withN_none {s : State} (h : s.n = none) (k : Nat → Result) :
    withN s k = .fault (.operandAbsent .n) := by
  simp [withN, h]
@[simp] theorem withM_none {s : State} (h : s.m = none) (k : Nat → Result) :
    withM s k = .fault (.operandAbsent .m) := by
  simp [withM, h]

/-- A reader that goes on read its port. -/
theorem withBits_next {s t : State} {k : Bits → Result} (h : withBits s k = .next t) :
    ∃ a, s.aBits = some a ∧ k a = .next t := by
  unfold withBits at h; split at h
  · exact ⟨_, ‹_›, h⟩
  · cases h
theorem withBytes_next {s t : State} {k : Bytes → Result} (h : withBytes s k = .next t) :
    ∃ a, s.aBytes = some a ∧ k a = .next t := by
  unfold withBytes at h; split at h
  · exact ⟨_, ‹_›, h⟩
  · cases h
theorem withBlocks_next {s t : State} {k : Blocks → Result} (h : withBlocks s k = .next t) :
    ∃ a, s.aBlocks = some a ∧ k a = .next t := by
  unfold withBlocks at h; split at h
  · exact ⟨_, ‹_›, h⟩
  · cases h
theorem withN_next {s t : State} {k : Nat → Result} (h : withN s k = .next t) :
    ∃ v, s.n = some v ∧ k v = .next t := by
  unfold withN at h; split at h
  · exact ⟨_, ‹_›, h⟩
  · cases h
theorem withM_next {s t : State} {k : Nat → Result} (h : withM s k = .next t) :
    ∃ v, s.m = some v ∧ k v = .next t := by
  unfold withM at h; split at h
  · exact ⟨_, ‹_›, h⟩
  · cases h

/-- The end of a transaction changes the output ports alone. -/
theorem finish_next {s t : State} {o : Outputs} (h : s.finish o = .next t) : t = s.setOut o := by
  simpa [State.finish] using h.symm

/-- A transaction's outputs are admitted as they are, or it has no run. -/
theorem admitOutputs_next {s t : State} (h : admitOutputs s = .next t) : t = s ∧ outputsFit s.inst s.out = true := by
  unfold admitOutputs at h; split at h
  · exact ⟨by simpa using h.symm, ‹_›⟩
  · cases h

/-- A checked operation that goes on is the operation itself. -/
theorem execChecked_next {i : Instr} {s t : State} (h : execChecked i s = .next t) :
    wideOperand i s = none ∧ exec i s = .next t ∧ outputsFit t.inst t.out = true := by
  unfold execChecked at h; split at h
  · cases h
  · split at h
    · obtain ⟨rfl, hf⟩ := admitOutputs_next h
      exact ⟨‹_›, ‹_›, hf⟩
    · cases h
    · cases h

/-- A transaction that goes on raised `ReservedEncoding`, or ran the operation its command word decodes to. -/
theorem transact_next {w : CmdWord} {s t : State} (h : transact w s = .next t) :
    (∃ e, decode w = .error e ∧ t = s.setOut (raiseReserved w)) ∨ (∃ i, decode w = .ok i ∧ exec i s = .next t) := by
  unfold transact at h; split at h
  · exact .inl ⟨_, ‹_›, (admitOutputs_next h).1⟩
  · exact .inr ⟨_, ‹_›, (execChecked_next h).2.1⟩

/-- Every port of an instance with unbounded ports takes every value. -/
theorem fitsNumber_unbounded {p : Instance} (h : p.lenWidth = none) (v : Nat) : fitsNumber p v = true := by
  simp [fitsNumber, h]
theorem fitsSequence_unbounded {p : Instance} (h : p.busBits = none) (v : Nat) : fitsSequence p v = true := by
  simp [fitsSequence, h]

/-- A copy goes on with the value the port holds. -/
@[simp] theorem copyResult_ok {α : Type} {r : ResultPort} {v : Option α} {a : α} :
    copyResult r v = .ok a ↔ v = some a := by
  cases v <;> simp [copyResult]

/-- A copy faults exactly on a port that holds no value. -/
@[simp] theorem copyResult_error {α : Type} {r : ResultPort} {v : Option α} {f : Fault} :
    copyResult r v = .error f ↔ v = none ∧ f = .resultAbsent r := by
  cases v <;> simp [copyResult, eq_comm]

@[simp] theorem driven_none {α β : Type} (f : α → Except Fault β) : driven f none = .ok none := rfl

theorem driven_some_ok {α β : Type} {f : α → Except Fault β} {a : α} {o : Option β} :
    driven f (some a) = .ok o ↔ ∃ b, f a = .ok b ∧ o = some b := by
  cases h : f a <;> simp [driven, h, eq_comm]

theorem driven_error {α β : Type} {f : α → Except Fault β} {o : Option α} {e : Fault} :
    driven f o = .error e ↔ ∃ a, o = some a ∧ f a = .error e := by
  cases o with
  | none => simp [driven]
  | some a => cases h : f a <;> simp [driven, h]

/-- On unbounded ports every output fits and no operand is too wide. -/
theorem outputsFit_unbounded {p : Instance} (hl : p.lenWidth = none) (hb : p.busBits = none) (o : Outputs) :
    outputsFit p o = true := by
  simp [outputsFit, hl, hb]
theorem wideOperand_unbounded {i : Instr} {s : State} (hl : s.inst.lenWidth = none) (hb : s.inst.busBits = none) :
    wideOperand i s = none := by
  have e : fitsNumber s.inst = fun _ => true := funext (fitsNumber_unbounded hl)
  have : ∀ p, s.operandFits p = true := by
    intro p; cases p <;> simp [State.operandFits, fitsSequence_unbounded hb, e]
  simp [wideOperand, this]

/-- Presenting a transaction drives the input ports and changes nothing else. -/
theorem present_ok {t : Transaction} {s s' : State} (h : present t s = .ok s') :
    s'.inst = s.inst ∧ s'.out = s.out ∧ s'.host = s.host ∧ s'.cmd = some t.cmd ∧
      driven (BitsArg.resolve s.out) t.aBits = .ok s'.aBits ∧ driven (BytesArg.resolve s.out) t.aBytes = .ok s'.aBytes ∧
      driven (BlocksArg.resolve s.out) t.aBlocks = .ok s'.aBlocks ∧ driven (NumArg.resolve s.out) t.n = .ok s'.n ∧
      driven (NumArg.resolve s.out) t.m = .ok s'.m := by
  unfold present at h
  cases h1 : driven (BitsArg.resolve s.out) t.aBits with
  | error e => simp [h1, bind, Except.bind] at h
  | ok bits =>
  cases h2 : driven (BytesArg.resolve s.out) t.aBytes with
  | error e => simp [h1, h2, bind, Except.bind] at h
  | ok bytes =>
  cases h3 : driven (BlocksArg.resolve s.out) t.aBlocks with
  | error e => simp [h1, h2, h3, bind, Except.bind] at h
  | ok blocks =>
  cases h4 : driven (NumArg.resolve s.out) t.n with
  | error e => simp [h1, h2, h3, h4, bind, Except.bind] at h
  | ok n =>
  cases h5 : driven (NumArg.resolve s.out) t.m with
  | error e => simp [h1, h2, h3, h4, h5, bind, Except.bind] at h
  | ok m =>
  simp [h1, h2, h3, h4, h5, bind, Except.bind, pure, Except.pure] at h
  subst h
  exact ⟨rfl, rfl, rfl, rfl, rfl, rfl, rfl, rfl, rfl⟩

/-- Presenting faults exactly when one of the five ports does. -/
theorem present_error {t : Transaction} {s : State} : (∃ e, present t s = .error e) ↔
    (∃ e, driven (BitsArg.resolve s.out) t.aBits = .error e) ∨ (∃ e, driven (BytesArg.resolve s.out) t.aBytes = .error e) ∨
      (∃ e, driven (BlocksArg.resolve s.out) t.aBlocks = .error e) ∨ (∃ e, driven (NumArg.resolve s.out) t.n = .error e) ∨
      (∃ e, driven (NumArg.resolve s.out) t.m = .error e) := by
  unfold present
  cases driven (BitsArg.resolve s.out) t.aBits <;> cases driven (BytesArg.resolve s.out) t.aBytes <;>
    cases driven (BlocksArg.resolve s.out) t.aBlocks <;> cases driven (NumArg.resolve s.out) t.n <;>
    cases driven (NumArg.resolve s.out) t.m <;> simp [bind, Except.bind, pure, Except.pure]

/-- A fault of presenting is the fault of one of the five ports. -/
theorem present_fault {t : Transaction} {s : State} {e : Fault} (h : present t s = .error e) :
    driven (BitsArg.resolve s.out) t.aBits = .error e ∨ driven (BytesArg.resolve s.out) t.aBytes = .error e ∨
      driven (BlocksArg.resolve s.out) t.aBlocks = .error e ∨ driven (NumArg.resolve s.out) t.n = .error e ∨
      driven (NumArg.resolve s.out) t.m = .error e := by
  revert h; unfold present
  cases driven (BitsArg.resolve s.out) t.aBits <;> cases driven (BytesArg.resolve s.out) t.aBytes <;>
    cases driven (BlocksArg.resolve s.out) t.aBlocks <;> cases driven (NumArg.resolve s.out) t.n <;>
    cases driven (NumArg.resolve s.out) t.m <;> simp_all [bind, Except.bind, pure, Except.pure]

/-- A step that goes on waited, met a reset, or ran the transaction the host presented. -/
theorem step_next {s t : State} (h : step s = .next t) :
    (s.host = [] ∧ t = s) ∨ (∃ rest, s.host = .reset :: rest ∧ t = (s.setHost rest).assertReset) ∨
      (∃ tr rest s', s.host = .run tr :: rest ∧ present tr (s.setHost rest) = .ok s' ∧ transact tr.cmd s' = .next t) := by
  unfold step at h; split at h
  · exact .inl ⟨‹_›, by simpa using h.symm⟩
  · exact .inr (.inl ⟨_, ‹_›, by simpa using h.symm⟩)
  · unfold runTransaction at h; split at h
    · cases h
    · exact .inr (.inr ⟨_, _, _, ‹_›, ‹_›, h⟩)

end Sys2Proof.Machine
end

