-- ==== Sys2Proof/Laws/Seq.lean ====
section
/-! SUPPORT. Lengths and elements of the sequence primitives (00_scope.md R12), and the arithmetic of padding. -/

namespace Sys2Proof.Machine

@[simp] theorem zeros_length (n : Nat) : (zeros n).length = n := by simp [zeros]
@[simp] theorem be_length (w v : Nat) : (be w v).length = w := by simp [be]
@[simp] theorem byteBits_length (b : Byte) : (byteBits b).length = 8 := by simp [byteBits]
@[simp] theorem chunks_length (w n : Nat) (s : Bits) : (chunks w n s).length = n := by simp [chunks]
@[simp] theorem digestBits_length (h : Word256) : (digestBits h).length = 256 := by
  simp [digestBits, Word256.words]

theorem bitOf_eq_testBit (k v : Nat) : bitOf k v = v.testBit k := by
  simp [bitOf, Nat.testBit_eq_decide_div_mod_eq, beq_eq_decide]

theorem be_getElem? {w v i : Nat} (h : i < w) : (be w v)[i]? = some (bitOf (w - 1 - i) v) := by
  simp [be, h]

theorem zeros_getElem? {n i : Nat} (h : i < n) : (zeros n)[i]? = some false := by
  simp [zeros, h]

theorem slice_length (a b : Nat) (s : Bits) : (slice a b s).length = min (b - a) (s.length - a) := by
  simp [slice]

theorem slice_getElem? {a b j : Nat} (s : Bits) (h : j < b - a) : (slice a b s)[j]? = s[a + j]? := by
  simp [slice, h]

theorem slice_zero (b : Nat) (s : Bits) : slice 0 b s = s.take b := by simp [slice]

theorem chunks_getElem? {w n i : Nat} (s : Bits) (h : i < n) : (chunks w n s)[i]? = some (slice (w * i) (w * i + w) s) := by
  simp [chunks, h]

/-- Every chunk of a long enough sequence has the chunk width. -/
theorem chunks_width {w n : Nat} {s : Bits} (h : w * n ≤ s.length) : ∀ b ∈ chunks w n s, b.length = w := by
  intro b hb
  simp only [chunks, List.mem_map, List.mem_range] at hb
  obtain ⟨i, hi, rfl⟩ := hb
  have : w * i + w ≤ w * n := by rw [← Nat.mul_succ]; exact Nat.mul_le_mul_left w hi
  rw [slice_length]; omega

theorem zeroRun_lt (len : Nat) : zeroRun len < 512 := Nat.mod_lt _ (by decide)

/-- The zero run fills the real blocks exactly (41_padder.md R61). -/
theorem zeroRun_spec (len : Nat) : len + 65 + zeroRun len = 512 * tBlock len := by
  unfold zeroRun tBlock; omega

theorem tBlock_pos (len : Nat) : 1 ≤ tBlock len := by unfold tBlock; omega

theorem tBlock_le_iff (len c : Nat) : tBlock len ≤ c ↔ len + 64 < 512 * c := by unfold tBlock; omega

/-- The padded sequence of the first `len` bits fills the real blocks. -/
theorem padded_length_of_le {a : Bits} {len : Nat} (h : len ≤ a.length) : (padded a len).length = 512 * tBlock len := by
  have := zeroRun_spec len
  simp [padded, slice_length]; omega

/-- No wrong width was found exactly when every block has the width. -/
theorem wrongWidth_eq_none {w : Nat} (b : Blocks) (i : Nat) : wrongWidth w i b = none ↔ ∀ x ∈ b, x.length = w := by
  induction b generalizing i with
  | nil => simp [wrongWidth]
  | cons x rest ih =>
    by_cases h : x.length = w
    · simp [wrongWidth, h, ih]
    · simp [wrongWidth, h]

/-- A wrong width found is that of the first block whose width is wrong. -/
theorem wrongWidth_eq_some {w : Nat} (b : Blocks) (i j len : Nat) :
    wrongWidth w i b = some (j, len) ↔
      ∃ k x, j = i + k ∧ b[k]? = some x ∧ x.length = len ∧ len ≠ w ∧ ∀ x ∈ b.take k, x.length = w := by
  induction b generalizing i with
  | nil => simp [wrongWidth]
  | cons x rest ih =>
    by_cases h : x.length = w
    · simp only [wrongWidth, h, ne_eq, not_true_eq_false, if_false, ih]
      constructor
      · rintro ⟨k, y, rfl, hy, hl, hw, hall⟩
        exact ⟨k + 1, y, by omega, by simpa using hy, hl, hw, by simp [h]; simpa using hall⟩
      · rintro ⟨k, y, rfl, hy, hl, hw, hall⟩
        cases k with
        | zero => simp only [List.getElem?_cons_zero, Option.some.injEq] at hy; subst hy; omega
        | succ k =>
          refine ⟨k, y, by omega, by simpa using hy, hl, hw, ?_⟩
          intro z hz; exact hall z (by simp [hz])
    · simp only [wrongWidth, ne_eq, h, not_false_eq_true, if_true, Option.some.injEq, Prod.mk.injEq]
      constructor
      · rintro ⟨rfl, rfl⟩; exact ⟨0, x, by simp, by simp, rfl, h, by simp⟩
      · rintro ⟨k, y, rfl, hy, hl, hw, hall⟩
        cases k with
        | zero => simp only [List.getElem?_cons_zero, Option.some.injEq] at hy; subst hy; simp [hl]
        | succ k => exact absurd (hall x (by simp)) h

/-- A chain over `n` blocks has `n + 1` chaining values (44_digest.md R76). -/
@[simp] theorem chainValues_length (f : Word256 → Bits → Word256) (h : Word256) (b : Blocks) :
    (chainValues f h b).length = b.length + 1 := by
  induction b generalizing h with
  | nil => rfl
  | cons x rest ih => simp [chainValues, ih]

/-- The chaining value after `t` blocks folds the compression function over them (R76). -/
theorem chainValues_getElem? (f : Word256 → Bits → Word256) (h : Word256) (b : Blocks) (t : Nat) (ht : t ≤ b.length) :
    (chainValues f h b)[t]? = some ((b.take t).foldl f h) := by
  induction b generalizing h t with
  | nil => simp_all [chainValues]
  | cons x rest ih =>
    cases t with
    | zero => simp [chainValues]
    | succ t => simpa [chainValues] using ih (f h x) t (by simpa using ht)

/-- Element `n*k + j` of equal pieces laid end to end is element `j` of piece `k`. -/
theorem flatMap_getElem? {α : Type} (f : α → Bits) (n : Nat) (hf : ∀ x, (f x).length = n) (l : List α) (k j : Nat) (x : α)
    (hx : l[k]? = some x) (hj : j < n) : (l.flatMap f)[n * k + j]? = (f x)[j]? := by
  induction l generalizing k with
  | nil => simp at hx
  | cons y r ih =>
    rw [List.flatMap_cons]
    cases k with
    | zero =>
      simp at hx; subst hx
      rw [List.getElem?_append_left (by rw [hf]; omega)]; simp
    | succ k =>
      rw [List.getElem?_append_right (by rw [hf, Nat.mul_succ]; omega), hf]
      rw [show n * (k + 1) + j - n = n * k + j by rw [Nat.mul_succ]; omega]
      exact ih k (by simpa using hx)

theorem natOfBits_append (s t : Bits) : natOfBits (s ++ t) = natOfBits s * 2 ^ t.length + natOfBits t := by
  have key : ∀ (t : Bits) (acc : Nat),
      t.foldl (fun acc b => 2 * acc + b.toNat) acc = acc * 2 ^ t.length + natOfBits t := by
    intro t
    induction t with
    | nil => intro acc; simp [natOfBits]
    | cons b r ih =>
      intro acc
      simp only [natOfBits, List.foldl_cons, List.length_cons]
      rw [ih, ih (2 * 0 + b.toNat)]
      ring
  rw [natOfBits, List.foldl_append, key]; rfl

theorem natOfBits_lt (s : Bits) : natOfBits s < 2 ^ s.length := by
  induction s using List.reverseRecOn with
  | nil => simp [natOfBits]
  | append_singleton s b ih =>
    rw [natOfBits_append]
    have : natOfBits [b] ≤ 1 := by cases b <;> simp [natOfBits]
    simp [pow_succ]; omega

/-- The natural of `be_N(v)` is `v` modulo `2^N`. -/
theorem natOfBits_be (w v : Nat) : natOfBits (be w v) = v % 2 ^ w := by
  induction w generalizing v with
  | zero => simp [be, natOfBits, Nat.mod_one]
  | succ w ih =>
    have : be (w + 1) v = [bitOf w v] ++ be w v := by
      simp only [be, List.range_succ_eq_map, List.map_cons, List.map_map, List.singleton_append]
      congr 1
      apply List.map_congr_left
      intro i hi
      simp only [Function.comp]
      congr 1; omega
    rw [this, natOfBits_append, ih, be_length]
    have h2 : natOfBits [bitOf w v] = v / 2 ^ w % 2 := by
      simp only [natOfBits, List.foldl_cons, List.foldl_nil, bitOf]
      rcases Nat.mod_two_eq_zero_or_one (v / 2 ^ w) with h | h <;> simp [h]
    rw [h2, pow_succ, Nat.mod_mul]; ring

/-- The big-endian bits of the natural of a sequence are the sequence. -/
theorem be_natOfBits (s : Bits) : be s.length (natOfBits s) = s := by
  apply List.ext_getElem?
  intro i
  by_cases hi : i < s.length
  · rw [be_getElem? hi, bitOf_eq_testBit]
    have htake : s.take (i + 1) = s.take i ++ [s[i]] := by rw [List.take_append_getElem]
    have hn : natOfBits s = (2 * natOfBits (s.take i) + (s[i]).toNat) * 2 ^ (s.length - 1 - i) +
        natOfBits (s.drop (i + 1)) := by
      conv_lhs => rw [← List.take_append_drop (i + 1) s, htake, natOfBits_append, natOfBits_append]
      have : natOfBits [s[i]] = (s[i]).toNat := by simp [natOfBits]
      rw [List.length_drop, this, List.length_singleton, pow_one, show s.length - (i + 1) = s.length - 1 - i by omega]
      ring
    have hlt := natOfBits_lt (s.drop (i + 1))
    rw [List.length_drop, show s.length - (i + 1) = s.length - 1 - i by omega] at hlt
    rw [Nat.testBit_eq_decide_div_mod_eq, hn, List.getElem?_eq_getElem hi]
    congr 1
    rw [Nat.add_comm, Nat.add_mul_div_right _ _ (by positivity), Nat.div_eq_of_lt hlt]
    cases s[i] <;> simp
  · rw [List.getElem?_eq_none (by simp; omega), List.getElem?_eq_none (by omega)]

/-- Chunks laid end to end are the sequence they were cut from. -/
theorem chunks_flatten (w n : Nat) (s : Bits) (h : w * n ≤ s.length) : (chunks w n s).flatten = s.take (w * n) := by
  induction n with
  | zero => simp [chunks]
  | succ n ih =>
    have h' : w * n ≤ s.length := by rw [Nat.mul_succ] at h; omega
    have e : chunks w (n + 1) s = chunks w n s ++ [slice (w * n) (w * n + w) s] := by simp [chunks, List.range_succ]
    rw [e, List.flatten_append, ih h', List.flatten_singleton, slice, Nat.mul_succ, List.take_add]
    congr 2; omega

theorem byteBits_eq_be (b : Byte) : byteBits b = be 8 b.toNat := by simp [byteBits, be]

theorem bytesToBits_length (b : Bytes) : (bytesToBits b).length = 8 * b.length := by
  induction b with
  | nil => rfl
  | cons x r ih =>
    simp only [bytesToBits, List.flatMap_cons, List.length_append, byteBits_length, List.length_cons] at *; omega

theorem bitsToBytes_length (a : Bits) : (bitsToBytes a).length = a.length / 8 := by simp [bitsToBytes]

theorem bitsToBytes_getElem? {a : Bits} {k : Nat} (hk : k < a.length / 8) :
    (bitsToBytes a)[k]? = some (BitVec.ofNat 8 (natOfBits (slice (8 * k) (8 * k + 8) a))) := by
  rw [bitsToBytes, List.getElem?_map, chunks_getElem? _ hk]; rfl

/-! The four regions of the padded sequence (41_padder.md R62). -/

theorem padded_message {a : Bits} {len q : Nat} (h : len ≤ a.length) (hq : q < len) : (padded a len)[q]? = a[q]? := by
  rw [padded, slice_zero, List.append_assoc, List.append_assoc, List.getElem?_append_left (by simp; omega),
    List.getElem?_take_of_lt hq]

theorem padded_stop {a : Bits} {len : Nat} (h : len ≤ a.length) : (padded a len)[len]? = some true := by
  rw [padded, slice_zero, List.append_assoc, List.append_assoc, List.getElem?_append_right (by simp)]
  simp [Nat.min_eq_left h]

theorem padded_zero {a : Bits} {len q : Nat} (h : len ≤ a.length) (h1 : len < q) (h2 : q < 512 * tBlock len - 64) :
    (padded a len)[q]? = some false := by
  have hz := zeroRun_spec len
  rw [padded, slice_zero, List.getElem?_append_left (by simp; omega), List.getElem?_append_right (by simp; omega)]
  simp [zeros, List.getElem?_replicate, Nat.min_eq_left h]; omega

theorem padded_suffix {a : Bits} {len q : Nat} (h : len ≤ a.length) (h1 : 512 * tBlock len - 64 ≤ q)
    (h2 : q < 512 * tBlock len) : (padded a len)[q]? = some (len.testBit (512 * tBlock len - 1 - q)) := by
  have hz := zeroRun_spec len
  have e : (List.take len a ++ [true] ++ zeros (zeroRun len)).length = 512 * tBlock len - 64 := by simp; omega
  rw [padded, slice_zero, List.getElem?_append_right (by omega), e, be_getElem? (by omega), bitOf_eq_testBit,
    show 64 - 1 - (q - (512 * tBlock len - 64)) = 512 * tBlock len - 1 - q by omega]

/-! The blocks of `FORMAT` (45_composite.md R80). -/

theorem formatBlocks_length {c : Nat} {a : Bits} {len : Nat} (h : tBlock len ≤ c) : (formatBlocks c a len).length = c := by
  simp [formatBlocks]; omega

theorem formatBlocks_real {c : Nat} {a : Bits} {len i : Nat} (h : i < tBlock len) :
    (formatBlocks c a len)[i]? = some (slice (512 * i) (512 * i + 512) (padded a len)) := by
  rw [formatBlocks, List.getElem?_append_left (by simpa using h), chunks_getElem? _ h]

theorem formatBlocks_filler {c : Nat} {a : Bits} {len i : Nat} (h : tBlock len ≤ i) (h' : i < c) :
    (formatBlocks c a len)[i]? = some (zeros 512) := by
  rw [formatBlocks, List.getElem?_append_right (by simpa using h), chunks_length, List.getElem?_replicate,
    if_pos (by omega)]

theorem formatBlocks_width {c : Nat} {a : Bits} {len : Nat} (h : len ≤ a.length) :
    ∀ x ∈ formatBlocks c a len, x.length = 512 := by
  intro x hx
  rcases List.mem_append.mp hx with hx | hx
  · exact chunks_width (by rw [padded_length_of_le h]) x hx
  · rw [List.eq_of_mem_replicate hx]; simp

end Sys2Proof.Machine
end

