-- ==== Sys2Proof/Laws/Meanings.lean ====
section
/-! SUPPORT. What each operation can answer, said once: its outputs by cases, and the inversion of `exec`. -/

namespace Sys2Proof.Machine

theorem bitsToBytesOutputs_cases (a : Bits) :
    (a.length % 8 ≠ 0 ∧ bitsToBytesOutputs a = raiseAlignment a.length 8) ∨
    (a.length % 8 = 0 ∧ bitsToBytesOutputs a = { Outputs.success with rBytes := some (bitsToBytes a) }) := by
  unfold bitsToBytesOutputs; split
  · exact .inl ⟨‹_›, rfl⟩
  · exact .inr ⟨by omega, rfl⟩

theorem padOutputs_cases (a : Bits) (len : Nat) :
    (2 ^ 64 ≤ len ∧ padOutputs a len = raiseOverflow len) ∨
    (len < 2 ^ 64 ∧ a.length < len ∧ padOutputs a len = raisePrecondition len len a.length) ∨
    (len < 2 ^ 64 ∧ len ≤ a.length ∧ padOutputs a len = { Outputs.success with rBits := some (padded a len) }) := by
  unfold padOutputs; split
  · exact .inl ⟨by omega, rfl⟩
  · split
    · exact .inr (.inl ⟨by omega, by omega, rfl⟩)
    · exact .inr (.inr ⟨by omega, by omega, rfl⟩)

theorem segmentOutputs_cases (a : Bits) (w : Nat) :
    (w = 0 ∧ segmentOutputs a w = raisePrecondition a.length 1 0) ∨
    (1 ≤ w ∧ a.length % w ≠ 0 ∧ segmentOutputs a w = raiseAlignment a.length w) ∨
    (1 ≤ w ∧ a.length % w = 0 ∧
      segmentOutputs a w = { Outputs.success with rBlocks := some (chunks w (a.length / w) a) }) := by
  unfold segmentOutputs; split
  · exact .inl ⟨by omega, rfl⟩
  · split
    · exact .inr (.inl ⟨by omega, by omega, rfl⟩)
    · exact .inr (.inr ⟨by omega, by omega, rfl⟩)

theorem fitOutputs_cases (c : Nat) (b : Blocks) (w : Nat) :
    (w = 0 ∧ fitOutputs c b w = raisePrecondition 0 1 0) ∨
    (1 ≤ w ∧ ∃ i x, b[i]? = some x ∧ x.length ≠ w ∧ (∀ y ∈ b.take i, y.length = w) ∧
      fitOutputs c b w = raisePrecondition x.length w i) ∨
    (1 ≤ w ∧ (∀ x ∈ b, x.length = w) ∧ c < b.length ∧ fitOutputs c b w = raiseCapacity b.length b.length c) ∨
    (1 ≤ w ∧ (∀ x ∈ b, x.length = w) ∧ b.length ≤ c ∧
      fitOutputs c b w = { Outputs.success with rBlocks := some (fillTo c w b) }) := by
  unfold fitOutputs; split
  · exact .inl ⟨by omega, rfl⟩
  · split
    · rename_i i len h
      rw [wrongWidth_eq_some] at h
      obtain ⟨k, x, hi, hx, rfl, hne, hall⟩ := h
      simp only [Nat.zero_add] at hi; subst hi
      exact .inr (.inl ⟨by omega, _, x, hx, hne, hall, rfl⟩)
    · rename_i h
      rw [wrongWidth_eq_none] at h
      split
      · exact .inr (.inr (.inl ⟨by omega, h, by omega, rfl⟩))
      · exact .inr (.inr (.inr ⟨by omega, h, by omega, rfl⟩))

theorem maxlenOutputs_cases (k : Nat) :
    (k = 0 ∧ maxlenOutputs k = raisePrecondition 0 1 0) ∨
    (1 ≤ k ∧ maxlenOutputs k = { Outputs.success with rNum := some (maxLen k) }) := by
  unfold maxlenOutputs; split
  · exact .inl ⟨by omega, rfl⟩
  · exact .inr ⟨by omega, rfl⟩

theorem digestOutputs_cases (p : Instance) (b : Blocks) (t : Nat) :
    (∃ i x, b[i]? = some x ∧ x.length ≠ 512 ∧ (∀ y ∈ b.take i, y.length = 512) ∧
      digestOutputs p b t = raisePrecondition x.length 512 i) ∨
    ((∀ x ∈ b, x.length = 512) ∧ (t < 1 ∨ b.length < t) ∧ digestOutputs p b t = raisePrecondition t 1 b.length) ∨
    ((∀ x ∈ b, x.length = 512) ∧ 1 ≤ t ∧ t ≤ b.length ∧
      digestOutputs p b t = { Outputs.success with rDigest := some (digestBits (selectedValue p b t)) }) := by
  unfold digestOutputs; split
  · rename_i i len h
    rw [wrongWidth_eq_some] at h
    obtain ⟨k, x, hi, hx, rfl, hne, hall⟩ := h
    simp only [Nat.zero_add] at hi; subst hi
    exact .inl ⟨_, x, hx, hne, hall, rfl⟩
  · rename_i h
    rw [wrongWidth_eq_none] at h
    split
    · exact .inr (.inl ⟨h, by omega, rfl⟩)
    · exact .inr (.inr ⟨h, by omega, by omega, rfl⟩)

/-- The checks of `FORMAT` and `HASH`, by cases. -/
theorem formatError_cases (c : Nat) (a : Bits) (len : Nat) :
    (2 ^ 64 ≤ len ∧ formatError c a len = some (raiseOverflow len)) ∨
    (len < 2 ^ 64 ∧ c < tBlock len ∧ formatError c a len = some (raiseCapacity len (tBlock len) c)) ∨
    (len < 2 ^ 64 ∧ tBlock len ≤ c ∧ a.length < len ∧
      formatError c a len = some (raisePrecondition len len a.length)) ∨
    (len < 2 ^ 64 ∧ tBlock len ≤ c ∧ len ≤ a.length ∧ formatError c a len = none) := by
  unfold formatError; split
  · exact .inl ⟨by omega, rfl⟩
  · split
    · exact .inr (.inl ⟨by omega, by omega, rfl⟩)
    · split
      · exact .inr (.inr (.inl ⟨by omega, by omega, by omega, rfl⟩))
      · exact .inr (.inr (.inr ⟨by omega, by omega, by omega, rfl⟩))

theorem formatOutputs_cases (c : Nat) (a : Bits) (len : Nat) :
    (2 ^ 64 ≤ len ∧ formatOutputs c a len = raiseOverflow len) ∨
    (len < 2 ^ 64 ∧ c < tBlock len ∧ formatOutputs c a len = raiseCapacity len (tBlock len) c) ∨
    (len < 2 ^ 64 ∧ tBlock len ≤ c ∧ a.length < len ∧ formatOutputs c a len = raisePrecondition len len a.length) ∨
    (len < 2 ^ 64 ∧ tBlock len ≤ c ∧ len ≤ a.length ∧ formatOutputs c a len =
      { Outputs.success with rBlocks := some (formatBlocks c a len), rTblock := some (tBlock len) }) := by
  rcases formatError_cases c a len with ⟨h1, h⟩ | ⟨h1, h2, h⟩ | ⟨h1, h2, h3, h⟩ | ⟨h1, h2, h3, h⟩
  · exact .inl ⟨h1, by simp only [formatOutputs, h]⟩
  · exact .inr (.inl ⟨h1, h2, by simp only [formatOutputs, h]⟩)
  · exact .inr (.inr (.inl ⟨h1, h2, h3, by simp only [formatOutputs, h]⟩))
  · exact .inr (.inr (.inr ⟨h1, h2, h3, by simp only [formatOutputs, h]⟩))

theorem hashOutputs_cases (p : Instance) (a : Bits) (len : Nat) :
    (2 ^ 64 ≤ len ∧ hashOutputs p a len = raiseOverflow len) ∨
    (len < 2 ^ 64 ∧ p.capacity < tBlock len ∧ hashOutputs p a len = raiseCapacity len (tBlock len) p.capacity) ∨
    (len < 2 ^ 64 ∧ tBlock len ≤ p.capacity ∧ a.length < len ∧
      hashOutputs p a len = raisePrecondition len len a.length) ∨
    (len < 2 ^ 64 ∧ tBlock len ≤ p.capacity ∧ len ≤ a.length ∧ hashOutputs p a len =
      { Outputs.success with
        rDigest := some (digestBits (selectedValue p (formatBlocks p.capacity a len) (tBlock len)))
        rTblock := some (tBlock len) }) := by
  rcases formatError_cases p.capacity a len with ⟨h1, h⟩ | ⟨h1, h2, h⟩ | ⟨h1, h2, h3, h⟩ | ⟨h1, h2, h3, h⟩
  · exact .inl ⟨h1, by simp only [hashOutputs, h]⟩
  · exact .inr (.inl ⟨h1, h2, by simp only [hashOutputs, h]⟩)
  · exact .inr (.inr (.inl ⟨h1, h2, h3, by simp only [hashOutputs, h]⟩))
  · exact .inr (.inr (.inr ⟨h1, h2, h3, by simp only [hashOutputs, h]⟩))

/-- The selected value folds the compression function over the first `t` blocks. -/
theorem selectedValue_eq {p : Instance} {b : Blocks} {t : Nat} (h : t ≤ b.length) :
    selectedValue p b t = (b.take t).foldl (applyCompressor p.compress) p.iv := by
  rw [selectedValue, List.getD, chainValues_getElem? _ _ _ _ h]; rfl

/-- The operation's ports hold operands on which it ends with the outputs `o`. -/
def answers (i : Instr) (s : State) (o : Outputs) : Prop :=
  match i with
  | .bytesToBits => ∃ b, s.aBytes = some b ∧ o = { Outputs.success with rBits := some (bytesToBits b) }
  | .bitsToBytes => ∃ a, s.aBits = some a ∧ o = bitsToBytesOutputs a
  | .pad => ∃ a len, s.aBits = some a ∧ s.n = some len ∧ o = padOutputs a len
  | .segment => ∃ a w, s.aBits = some a ∧ s.m = some w ∧ o = segmentOutputs a w
  | .fit => ∃ b w, s.aBlocks = some b ∧ s.m = some w ∧ o = fitOutputs s.inst.capacity b w
  | .tblock => ∃ len, s.n = some len ∧ o = { Outputs.success with rNum := some (tBlock len) }
  | .capacity => ∃ bs, s.n = some bs ∧ o = { Outputs.success with rNum := some (capacityOf bs) }
  | .maxlen => ∃ k, s.n = some k ∧ o = maxlenOutputs k
  | .digest => ∃ b t, s.aBlocks = some b ∧ s.n = some t ∧ o = digestOutputs s.inst b t
  | .format => ∃ a len, s.aBits = some a ∧ s.n = some len ∧ o = formatOutputs s.inst.capacity a len
  | .hash => ∃ a len, s.aBits = some a ∧ s.n = some len ∧ o = hashOutputs s.inst a len

/-- An operation that goes on read its operands and changed the output ports alone. -/
theorem exec_next {i : Instr} {s t : State} (h : exec i s = .next t) : ∃ o, t = s.setOut o ∧ answers i s o := by
  cases i <;> simp only [exec, execBytesToBits, execBitsToBytes, execPad, execSegment, execFit, execTblock,
    execCapacity, execMaxlen, execDigest, execFormat, execHash] at h
  · obtain ⟨a, h1, h⟩ := withBytes_next h; exact ⟨_, finish_next h, a, h1, rfl⟩
  · obtain ⟨a, h1, h⟩ := withBits_next h; exact ⟨_, finish_next h, a, h1, rfl⟩
  · obtain ⟨a, h1, h⟩ := withBits_next h; obtain ⟨b, h2, h⟩ := withN_next h
    exact ⟨_, finish_next h, a, b, h1, h2, rfl⟩
  · obtain ⟨a, h1, h⟩ := withBits_next h; obtain ⟨b, h2, h⟩ := withM_next h
    exact ⟨_, finish_next h, a, b, h1, h2, rfl⟩
  · obtain ⟨a, h1, h⟩ := withBlocks_next h; obtain ⟨b, h2, h⟩ := withM_next h
    exact ⟨_, finish_next h, a, b, h1, h2, rfl⟩
  · obtain ⟨a, h1, h⟩ := withN_next h; exact ⟨_, finish_next h, a, h1, rfl⟩
  · obtain ⟨a, h1, h⟩ := withN_next h; exact ⟨_, finish_next h, a, h1, rfl⟩
  · obtain ⟨a, h1, h⟩ := withN_next h; exact ⟨_, finish_next h, a, h1, rfl⟩
  · obtain ⟨a, h1, h⟩ := withBlocks_next h; obtain ⟨b, h2, h⟩ := withN_next h
    exact ⟨_, finish_next h, a, b, h1, h2, rfl⟩
  · obtain ⟨a, h1, h⟩ := withBits_next h; obtain ⟨b, h2, h⟩ := withN_next h
    exact ⟨_, finish_next h, a, b, h1, h2, rfl⟩
  · obtain ⟨a, h1, h⟩ := withBits_next h; obtain ⟨b, h2, h⟩ := withN_next h
    exact ⟨_, finish_next h, a, b, h1, h2, rfl⟩

/-- An operation whose operands are there goes on. -/
theorem exec_of_answers {i : Instr} {s : State} {o : Outputs} (h : answers i s o) : exec i s = .next (s.setOut o) := by
  cases i <;> simp only [answers] at h
  · obtain ⟨b, h1, rfl⟩ := h; simp [exec, execBytesToBits, h1]
  · obtain ⟨b, h1, rfl⟩ := h; simp [exec, execBitsToBytes, h1]
  · obtain ⟨a, b, h1, h2, rfl⟩ := h; simp [exec, execPad, h1, h2]
  · obtain ⟨a, b, h1, h2, rfl⟩ := h; simp [exec, execSegment, h1, h2]
  · obtain ⟨a, b, h1, h2, rfl⟩ := h; simp [exec, execFit, h1, h2]
  · obtain ⟨b, h1, rfl⟩ := h; simp [exec, execTblock, h1]
  · obtain ⟨b, h1, rfl⟩ := h; simp [exec, execCapacity, h1]
  · obtain ⟨b, h1, rfl⟩ := h; simp [exec, execMaxlen, h1]
  · obtain ⟨a, b, h1, h2, rfl⟩ := h; simp [exec, execDigest, h1, h2]
  · obtain ⟨a, b, h1, h2, rfl⟩ := h; simp [exec, execFormat, h1, h2]
  · obtain ⟨a, b, h1, h2, rfl⟩ := h; simp [exec, execHash, h1, h2]

/-- The only fault of an operation is a port it reads and which is not driven. -/
theorem exec_fault {i : Instr} {s : State} {f : Fault} (h : exec i s = .fault f) :
    ∃ p, f = .operandAbsent p ∧ readsPort i p = true ∧ s.drives p = false := by
  cases i <;> simp only [exec, execBytesToBits, execBitsToBytes, execPad, execSegment, execFit, execTblock,
    execCapacity, execMaxlen, execDigest, execFormat, execHash, withBits, withBytes, withBlocks, withN, withM] at h <;>
  · split at h
    · first
      | cases h
      | (split at h
         · cases h
         · cases h; exact ⟨_, rfl, rfl, by simp [State.drives, *]⟩)
    · cases h; exact ⟨_, rfl, rfl, by simp [State.drives, *]⟩

/-- An operation is never refused: it goes on, or faults. -/
theorem exec_ne_refused (i : Instr) (s : State) (r : Refusal) : exec i s ≠ .refused r := by
  cases i <;> simp only [exec, execBytesToBits, execBitsToBytes, execPad, execSegment, execFit, execTblock,
    execCapacity, execMaxlen, execDigest, execFormat, execHash, withBits, withBytes, withBlocks, withN, withM] <;>
  · intro h
    split at h
    · first
      | cases h
      | (split at h <;> cases h)
    · cases h

/-- Nor has a transaction another fault than its operation's, once it is presented. -/
theorem transact_fault {w : CmdWord} {s : State} {f : Fault} (h : transact w s = .fault f) :
    ∃ i p, f = .operandAbsent p ∧ decode w = .ok i ∧ readsPort i p = true ∧ s.drives p = false := by
  unfold transact at h; split at h
  · unfold admitOutputs at h; split at h <;> cases h
  · unfold execChecked at h; split at h
    · cases h
    · split at h
      · unfold admitOutputs at h; split at h <;> cases h
      · cases h
        obtain ⟨p, h1, h2, h3⟩ := exec_fault ‹_›
        exact ⟨_, p, h1, ‹_›, h2, h3⟩
      · cases h

end Sys2Proof.Machine
end

