-- ==== Sys2Proof/Laws/Boundary.lean ====
section
/-! SUPPORT. What happens at the edges of a transaction, said once: the host's copies, the checks of the port widths, the
faults of a step, building an instance, and what the assembler drives. -/

namespace Sys2Proof.Machine

/-! ### Copies and the faults of a step -/

section copies
variable {t : Transaction}
@[simp] theorem copies_rBits : t.copies .rBits ↔ t.aBits = some .rBits := Iff.rfl
@[simp] theorem copies_rBytes : t.copies .rBytes ↔ t.aBytes = some .rBytes := Iff.rfl
@[simp] theorem copies_rBlocks : t.copies .rBlocks ↔ t.aBlocks = some .rBlocks := Iff.rfl
@[simp] theorem copies_rNum : t.copies .rNum ↔ t.n = some .rNum ∨ t.m = some .rNum := Iff.rfl
@[simp] theorem copies_rTblock : t.copies .rTblock ↔ t.n = some .rTblock ∨ t.m = some .rTblock := Iff.rfl
@[simp] theorem copies_rDigest : t.copies .rDigest ↔ t.aBits = some .rDigest := Iff.rfl
end copies

/-- A transaction is self-contained when it copies no result. -/
theorem selfContained_iff {t : Transaction} : t.selfContained ↔ ∀ r, ¬ t.copies r := by
  constructor
  · rintro ⟨h1, h2, h3, h4, h5, h6, h7, h8⟩ r
    cases r <;> simp [*]
  · intro h
    exact ⟨h .rBits, h .rDigest, h .rBytes, h .rBlocks, fun e => h .rNum (.inl e), fun e => h .rTblock (.inl e),
      fun e => h .rNum (.inr e), fun e => h .rTblock (.inr e)⟩

/-- Presenting faults only on a copied result port that holds no value. -/
theorem present_fault_copies {t : Transaction} {s : State} {f : Fault} (h : present t s = .error f) :
    ∃ r, f = .resultAbsent r ∧ t.copies r ∧ s.out.holdsResult r = false := by
  rcases present_fault h with h | h | h | h | h <;> rw [driven_error] at h <;> obtain ⟨a, ht, ha⟩ := h <;>
    cases a <;> simp [BitsArg.resolve, BytesArg.resolve, BlocksArg.resolve, NumArg.resolve] at ha <;>
    exact ⟨_, ha.2, by simp [ht], by simp [Outputs.holdsResult, ha.1]⟩

/-- A step that faults presented a transaction, and either a copy faulted or its operation did. -/
theorem step_fault {s : State} {f : Fault} (h : step s = .fault f) : ∃ t rest, s.host = .run t :: rest ∧
    (present t (s.setHost rest) = .error f ∨
      ∃ s', present t (s.setHost rest) = .ok s' ∧ transact t.cmd s' = .fault f) := by
  unfold step at h; split at h
  · cases h
  · cases h
  · refine ⟨_, _, ‹_›, ?_⟩
    unfold runTransaction at h; split at h
    · cases h; exact .inl ‹_›
    · exact .inr ⟨_, ‹_›, h⟩

/-! ### Port widths -/

/-- No operand is too wide exactly when every operand that the operation reads fits. -/
theorem wideOperand_eq_none {i : Instr} {s : State} :
    wideOperand i s = none ↔ ∀ p, readsPort i p = true → s.operandFits p = true := by
  simp only [wideOperand, List.find?_eq_none, Bool.and_eq_true, Bool.not_eq_true', not_and, Bool.not_eq_false]
  exact ⟨fun h p => h p (by cases p <;> decide), fun h p _ => h p⟩

/-- An operand that is too wide is one the operation reads. -/
theorem wideOperand_eq_some {i : Instr} {s : State} {p : InPort} (h : wideOperand i s = some p) :
    readsPort i p = true ∧ s.operandFits p = false := by
  simpa using List.find?_some h

/-- Everything a checked operation can do, in the order of its checks. -/
theorem execChecked_cases (i : Instr) (s : State) :
    (∃ p, wideOperand i s = some p ∧ execChecked i s = .refused (.operandTooWide p)) ∨
    (wideOperand i s = none ∧ ∃ f, exec i s = .fault f ∧ execChecked i s = .fault f) ∨
    (wideOperand i s = none ∧ ∃ t, exec i s = .next t ∧ outputsFit t.inst t.out = false ∧
      execChecked i s = .refused .resultTooWide) ∨
    (wideOperand i s = none ∧ ∃ t, exec i s = .next t ∧ outputsFit t.inst t.out = true ∧ execChecked i s = .next t) := by
  cases hw : wideOperand i s with
  | some p => exact .inl ⟨p, rfl, by simp only [execChecked, hw]⟩
  | none =>
    cases he : exec i s with
    | fault f => exact .inr (.inl ⟨rfl, f, rfl, by simp only [execChecked, hw, he]⟩)
    | refused r => exact absurd he (exec_ne_refused i s r)
    | next t =>
      cases hf : outputsFit t.inst t.out
      · exact .inr (.inr (.inl ⟨rfl, t, rfl, hf, by simp [execChecked, hw, he, admitOutputs, hf]⟩))
      · exact .inr (.inr (.inr ⟨rfl, t, rfl, hf, by simp [execChecked, hw, he, admitOutputs, hf]⟩))

/-- On unbounded ports a checked operation is the operation. -/
theorem execChecked_unbounded {i : Instr} {s : State} (h : s.inst.unbounded) : execChecked i s = exec i s := by
  have hw : wideOperand i s = none := wideOperand_unbounded h.1 h.2
  rcases execChecked_cases i s with ⟨p, h1, -⟩ | ⟨-, f, h1, h2⟩ | ⟨-, t, h1, h2, -⟩ | ⟨-, t, h1, -, h2⟩
  · rw [hw] at h1; cases h1
  · rw [h1, h2]
  · obtain ⟨o, rfl, -⟩ := exec_next h1
    rw [State.setOut_inst, outputsFit_unbounded h.1 h.2] at h2; cases h2
  · rw [h1, h2]

/-- A reserved command word, with the check of its one number. -/
theorem transact_reserved {w : CmdWord} {s : State} {e : DecodeError} (h : decode w = .error e) :
    transact w s = if fitsNumber s.inst w.toNat then .next (s.setOut (raiseReserved w)) else .refused .resultTooWide := by
  have : outputsFit s.inst (raiseReserved w) = fitsNumber s.inst w.toNat := by
    cases hl : s.inst.lenWidth <;> cases hb : s.inst.busBits <;>
      simp [outputsFit, raiseReserved, raise, Outputs.noValue, fitsNumber, hl, hb]
  simp only [transact, h, admitOutputs, State.setOut_inst, State.setOut_out, this]

/-! ### Building an instance -/

/-- Everything a build can give: an instance with what was asked for, or the reason there is none. -/
theorem elaborate_cases (b : Build) :
    (requestedCapacity b.capacity = 0 ∧ elaborate b = .error .noCapacity) ∨
    (1 ≤ requestedCapacity b.capacity ∧ busHolds (requestedCapacity b.capacity) b.busBits = false ∧
      elaborate b = .error .busTooNarrow) ∨
    (∃ p, elaborate b = .ok p ∧ busHolds (requestedCapacity b.capacity) b.busBits = true ∧
      p.capacity = requestedCapacity b.capacity ∧ p.iv = b.iv ∧ p.compress = b.compress ∧ p.lenWidth = b.lenWidth ∧
      p.busBits = b.busBits) := by
  unfold elaborate; split
  · split
    · exact .inr (.inr ⟨_, rfl, ‹_›, rfl, rfl, rfl, rfl, rfl⟩)
    · rename_i h hb; exact .inr (.inl ⟨h, by simpa using hb, rfl⟩)
  · exact .inl ⟨by omega, rfl⟩

/-! ### The assembler -/

/-- What a value of the textual syntax puts on a port, as the transaction that drives that port alone. -/
theorem drivePort_drives (t : Transaction) (v : TextValue) (p q : InPort) :
    Transaction.drives (drivePort t v p) q = true ↔ Transaction.drives t q = true ∨ p = q := by
  cases p <;> cases q <;> simp [drivePort, Transaction.drives]

/-- Two transactions present the same thing on an input port. -/
def sameOn (p : InPort) (t u : Transaction) : Prop :=
  match p with
  | .aBits => t.aBits = u.aBits
  | .aBytes => t.aBytes = u.aBytes
  | .aBlocks => t.aBlocks = u.aBlocks
  | .n => t.n = u.n
  | .m => t.m = u.m

theorem sameOn_refl (p : InPort) (t : Transaction) : sameOn p t t := by cases p <;> rfl

theorem sameOn_trans {p : InPort} {t u v : Transaction} (h : sameOn p t u) (h' : sameOn p u v) : sameOn p t v := by
  cases p <;> exact Eq.trans h h'

/-- Driving a port leaves the other ports and the command word alone. -/
theorem drivePort_sameOn (t : Transaction) (v : TextValue) {p q : InPort} (h : p ≠ q) : sameOn q t (drivePort t v p) := by
  cases p <;> cases q <;> first | exact absurd rfl h | rfl

/-- An accepted argument drives the port it names with its value, and that port was free. -/
theorem assembleArg_inv {t u : Transaction} {a : String × TextValue} (h : assembleArg t a = .ok u) :
    ∃ p, InPort.ofName? a.1 = some p ∧ Transaction.drives t p = false ∧ a.2.suits p = true ∧ u = drivePort t a.2 p := by
  unfold assembleArg at h; split at h
  · cases h
  · split at h
    · cases h
    · split at h
      · rename_i hf hs; cases h; exact ⟨_, ‹_›, by simpa using hf, hs, rfl⟩
      · cases h

/-- Accepted arguments: the first is accepted, and then the rest. -/
theorem assembleArgs_cons {t u : Transaction} {a : String × TextValue} {rest : List (String × TextValue)}
    (h : assembleArgs t (a :: rest) = .ok u) : ∃ t', assembleArg t a = .ok t' ∧ assembleArgs t' rest = .ok u := by
  rw [assembleArgs] at h; split at h
  · cases h
  · exact ⟨_, ‹_›, h⟩

/-- Accepted arguments keep the command word, and leave every port they do not name, or that was driven before, as it is. -/
theorem assembleArgs_keeps {args : List (String × TextValue)} {t u : Transaction} (h : assembleArgs t args = .ok u) :
    u.cmd = t.cmd ∧
      ∀ p, (Transaction.drives t p = true ∨ ∀ a ∈ args, InPort.ofName? a.1 ≠ some p) → sameOn p t u := by
  induction args generalizing t with
  | nil => cases h; exact ⟨rfl, fun p _ => sameOn_refl p _⟩
  | cons a rest ih =>
    obtain ⟨t', h1, h2⟩ := assembleArgs_cons h
    obtain ⟨p, hp, hf, -, rfl⟩ := assembleArg_inv h1
    obtain ⟨hc, hs⟩ := ih h2
    refine ⟨by rw [hc]; cases p <;> rfl, fun q hq => ?_⟩
    have hne : p ≠ q := by
      rintro rfl
      rcases hq with hq | hq
      · rw [hf] at hq; cases hq
      · exact hq a (by simp) hp
    refine sameOn_trans (drivePort_sameOn t a.2 hne) (hs q ?_)
    rcases hq with hq | hq
    · exact .inl ((drivePort_drives t a.2 p q).mpr (.inl hq))
    · exact .inr fun b hb => hq b (by simp [hb])

/-- Each accepted argument drives its port with its value. -/
theorem assembleArgs_mem {args : List (String × TextValue)} {t u : Transaction} (h : assembleArgs t args = .ok u)
    {a : String × TextValue} (ha : a ∈ args) {p : InPort} (hp : InPort.ofName? a.1 = some p) :
    sameOn p (drivePort t a.2 p) u := by
  induction args generalizing t with
  | nil => simp at ha
  | cons b rest ih =>
    obtain ⟨t', h1, h2⟩ := assembleArgs_cons h
    obtain ⟨q, hq, hf, -, rfl⟩ := assembleArg_inv h1
    rcases List.mem_cons.mp ha with rfl | ha
    · rw [hp] at hq; cases hq
      exact (assembleArgs_keeps h2).2 p (.inl ((drivePort_drives t a.2 p p).mpr (.inr rfl)))
    · refine sameOn_trans ?_ (ih h2 ha)
      cases p <;> rfl

end Sys2Proof.Machine
end

