-- ==== Sys2Proof/Laws/PerInstr.lean ====
section
/-! SUPPORT. The family `OpcodeRow`: an operation's row of the opcode table. One lemma per constructor. -/

namespace Sys2Proof.Laws.OpcodeRow

/-- An operation is well formed, its word decodes to it, its mnemonic names it, and its word has no reserved bit
(30_encoding.md R43 to R46, R54). -/
def Statement (i : Instr) : Prop :=
  i.wf = true ∧ decode (encode i) = .ok i ∧ Instr.ofMnemonic? i.mnemonic = some i ∧ fieldRsv (encode i) = 0#12

theorem bytesToBits : Statement .bytesToBits := ⟨rfl, by decide, by decide, by decide⟩
theorem bitsToBytes : Statement .bitsToBytes := ⟨rfl, by decide, by decide, by decide⟩
theorem pad : Statement .pad := ⟨rfl, by decide, by decide, by decide⟩
theorem segment : Statement .segment := ⟨rfl, by decide, by decide, by decide⟩
theorem fit : Statement .fit := ⟨rfl, by decide, by decide, by decide⟩
theorem tblock : Statement .tblock := ⟨rfl, by decide, by decide, by decide⟩
theorem capacity : Statement .capacity := ⟨rfl, by decide, by decide, by decide⟩
theorem maxlen : Statement .maxlen := ⟨rfl, by decide, by decide, by decide⟩
theorem digest : Statement .digest := ⟨rfl, by decide, by decide, by decide⟩
theorem format : Statement .format := ⟨rfl, by decide, by decide, by decide⟩
theorem hash : Statement .hash := ⟨rfl, by decide, by decide, by decide⟩

end Sys2Proof.Laws.OpcodeRow
end

