-- ==== Sys2Proof/Tests/Slice0.lean ====
section
/-! SUPPORT. Tests of one step or one operation each, with expected results written out from the spec's encoding tables and
from 95_test_vectors.md; the smoke tests of the well-formedness checks; and, for each statement with hypotheses, concrete
values that meet them all together, at the ends of their ranges. -/

namespace Sys2Proof.Tests

open Sys2Proof.Machine

/-! ### Helpers -/

/-- A machine after reset, with the standard parameters and capacity `c`. -/
def blank (c : Nat) (h : 1 ≤ c := by decide) : State := State.resetOf (Config.standardInstance c h)

/-- Operands on the ports. -/
def onBits (a : Bits) (s : State) : State := { s with aBits := some a }
def onBytes (b : Bytes) (s : State) : State := { s with aBytes := some b }
def onBlocks (b : Blocks) (s : State) : State := { s with aBlocks := some b }
def onN (v : Nat) (s : State) : State := { s with n := some v }
def onM (v : Nat) (s : State) : State := { s with m := some v }

/-- The output ports after a step or an operation that goes on. -/
def outputs : Result → Option Outputs
  | .next t => some t.out
  | .fault _ => none
  | .refused _ => none

/-- Why a step or an operation stops. -/
def faultOf : Result → Option Fault
  | .next _ => none
  | .fault f => some f
  | .refused _ => none
def refusalOf : Result → Option Refusal
  | .next _ => none
  | .fault _ => none
  | .refused r => some r

/-- A machine with capacity 1, number ports of `w` bits and sequence ports of 512 bits. -/
def narrow (w : Nat) : State := State.resetOf ⟨1, by decide, Sha256.iv, .standard, some w, some 512, rfl⟩

/-- A machine after reset whose host presents one transaction. -/
def presenting (t : Transaction) : State := (blank 2).setHost [.run t]

/-- Bits and bytes from numbers. -/
def bits (l : List Nat) : Bits := l.map fun v => v == 1
def bigEndian (count v : Nat) : Bytes := (List.range count).map fun i => BitVec.ofNat 8 (v / 256 ^ (count - 1 - i))

/-- The outputs with `OK` and nothing else yet, and those of an error. -/
def okay : Outputs := { Outputs.noValue with status := some 0#3 }
def failed (code len : Nat) (required available : Option Nat) : Outputs :=
  { Outputs.noValue with
    status := some (BitVec.ofNat 3 code), errLen := some len, errReq := required, errAvail := available }

/-- A message of `count` letters `a`, 01100001 each. -/
def letters (count : Nat) : Bits := (List.replicate count (bits [0, 1, 1, 0, 0, 0, 0, 1])).flatten

/-- The message `abc`. -/
def abc : Bits := bits [0, 1, 1, 0, 0, 0, 0, 1, 0, 1, 1, 0, 0, 0, 1, 0, 0, 1, 1, 0, 0, 0, 1, 1]

/-- Its padded block: `x"61626380"`, 416 zeros, and 24 in 64 bits. -/
def abcBlock : Bits :=
  abc ++ bits [1, 0, 0, 0, 0, 0, 0, 0] ++ List.replicate 416 false ++ List.replicate 59 false ++ bits [1, 1, 0, 0, 0]

/-! ### Decoding: words written out bit by bit from R43 and R45 -/

theorem test_decode_bytesToBits : decode 0b0000000000000001#16 = .ok .bytesToBits := by decide
theorem test_decode_bitsToBytes : decode 0b0000000000000010#16 = .ok .bitsToBytes := by decide
theorem test_decode_pad : decode 0b0000000000000011#16 = .ok .pad := by decide
theorem test_decode_segment : decode 0b0000000000000100#16 = .ok .segment := by decide
theorem test_decode_fit : decode 0b0000000000000101#16 = .ok .fit := by decide
theorem test_decode_tblock : decode 0b0000000000000110#16 = .ok .tblock := by decide
theorem test_decode_capacity : decode 0b0000000000000111#16 = .ok .capacity := by decide
theorem test_decode_maxlen : decode 0b0000000000001000#16 = .ok .maxlen := by decide
theorem test_decode_digest : decode 0b0000000000001001#16 = .ok .digest := by decide
theorem test_decode_format : decode 0b0000000000001010#16 = .ok .format := by decide
theorem test_decode_hash : decode 0b0000000000001011#16 = .ok .hash := by decide

/-- V-ENC: reserved codes and reserved bits, the latter above an assigned code too. -/
theorem test_decode_reserved :
    decode 0b0000000000000000#16 = .error .reservedCode ∧ decode 0b0000000000001100#16 = .error .reservedCode ∧
    decode 0b0000000000001111#16 = .error .reservedCode ∧ decode 0b0000000000010001#16 = .error .reservedBits ∧
    decode 0b0001000000001011#16 = .error .reservedBits := by decide

/-- The encodings of R54. -/
theorem test_encode_words : Instr.all.map encode = [1#16, 2#16, 3#16, 4#16, 5#16, 6#16, 7#16, 8#16, 9#16, 10#16, 11#16] := by
  decide

/-- V-ENC: `0x0011` and `0x100B` end with `RESERVED_ENCODING` and the word, with no operand driven. -/
theorem test_reserved_word :
    outputs (transact 0x0011#16 (blank 2)) = some (failed 5 17 none none) ∧
    outputs (transact 0x100B#16 (blank 2)) = some (failed 5 4107 none none) := by decide

/-! ### The well-formedness checks: an ill-formed term for each -/

theorem test_wf_unknown_mnemonic : TextTransaction.wf ⟨.op "pad", []⟩ = false := by decide
theorem test_wf_not_input_port : TextTransaction.wf ⟨.op "PAD", [("R_BITS", .num 1)]⟩ = false := by decide
theorem test_wf_port_twice : TextTransaction.wf ⟨.op "TBLOCK", [("N", .num 1), ("N", .num 1)]⟩ = false := by decide
theorem test_wf_number_on_bits : TextTransaction.wf ⟨.op "PAD", [("A_BITS", .num 1)]⟩ = false := by decide
theorem test_wf_bits_on_bytes :
    TextTransaction.wf ⟨.op "BYTES_TO_BITS", [("A_BYTES", .seq (.bin [true]))]⟩ = false := by decide
theorem test_wf_not_ascii :
    TextTransaction.wf ⟨.op "BYTES_TO_BITS", [("A_BYTES", .seq (.ascii [Char.ofNat 233]))]⟩ = false := by decide
theorem test_wf_wrong_result : TextTransaction.wf ⟨.op "TBLOCK", [("N", .result .rBits)]⟩ = false := by decide
theorem test_wf_good_text : TextTransaction.wf ⟨.op "TBLOCK", [("N", .num 1), ("A_BITS", .result .rDigest)]⟩ = true := by
  decide
theorem test_wf_bit_slot : RawTransaction.wf { cmd := 3, aBits := some [0, 1, 2] } = false := by decide
theorem test_wf_block_slot : RawTransaction.wf { cmd := 5, aBlocks := some [[1], [2]] } = false := by decide
theorem test_wf_byte_slot : RawTransaction.wf { cmd := 1, aBytes := some [255, 256] } = false := by decide
theorem test_wf_command : RawTransaction.wf { cmd := 65536 } = false := by decide
theorem test_wf_good_raw :
    RawTransaction.wf { cmd := 65535, aBits := some [0, 1], aBytes := some [0, 255], aBlocks := some [[1]] } = true := by
  decide
theorem test_wf_no_capacity : Build.wf ⟨.blocks 0, Sha256.iv, .standard, none, none⟩ = false := by decide
theorem test_wf_bus_too_narrow : Build.wf ⟨.blockSpace 1, Sha256.iv, .standard, none, some 1023⟩ = false := by decide
theorem test_wf_good_build : Build.wf ⟨.blockSpace 1, Sha256.iv, .standard, some 65, some 1024⟩ = true := by decide

/-- Each refusal by its name. -/
theorem test_refusals_by_name :
    assemble ⟨.op "PAD", [("N", .num 1), ("N", .num 1)]⟩ = .error (.portTwice .n) ∧
    assemble ⟨.op "PAD", [("R_BITS", .num 1)]⟩ = .error (.notInputPort "R_BITS") ∧
    admitRaw { cmd := 3, aBits := some [2] } = .error (.slotNotBinary .aBits) ∧
    admitRaw { cmd := 1, aBytes := some [256] } = .error .byteOutOfRange ∧
    admitRaw { cmd := 65536 } = .error .commandTooWide := by decide
theorem test_elaborate_refusals :
    elaborate ⟨.blocks 0, Sha256.iv, .standard, none, none⟩ = .error .noCapacity ∧
    elaborate ⟨.blocks 2, Sha256.iv, .standard, none, some 1023⟩ = .error .busTooNarrow := by decide

/-! ### The textual syntax (R52, R53, R55) -/

theorem test_text_line :
    readLine "FIT A_BLOCKS=[b\"1011\", zeros(2)], M=0x10".toList =
      some ⟨.op "FIT", [("A_BLOCKS", .list [.bin [true, false, true, true], .zeros 2]), ("M", .num 16)]⟩ := by
  decide +kernel
theorem test_text_program :
    assembleProgram ["MAXLEN N=2".toList, "CMD=0x0006 N=$R_NUM".toList] =
      .ok [.run { cmd := 8#16, n := some (.value 2) }, .run { cmd := 6#16, n := some .rNum }] := by decide +kernel
theorem test_text_macro :
    assembleLine "SHA256 A_BYTES=x\"6162\"".toList = .ok (expand (.sha256 [0x61, 0x62])) := by decide +kernel
/-- The elements of a block list are literals, not copies (log entry 13). -/
theorem test_text_refused :
    assembleLine "TBLOCK N=1 2".toList = .error .badText ∧
    assembleLine "FIT A_BLOCKS=[$R_BITS], M=1".toList = .error .badText ∧ assembleLine "tblock N=1".toList =
      .error (.unknownMnemonic "tblock") := by decide +kernel

/-! ### The operations (V-SER to V-HASH of 95_test_vectors.md) -/

theorem test_bytesToBits_order :
    outputs (exec .bytesToBits (onBytes [0x80, 0x01] (blank 2))) =
      some { okay with rBits := some (bits [1, 0, 0, 0, 0, 0, 0, 0, 0, 0, 0, 0, 0, 0, 0, 1]) } := by decide
theorem test_bytesToBits_abc :
    outputs (exec .bytesToBits (onBytes [0x61, 0x62, 0x63] (blank 2))) = some { okay with rBits := some abc } := by decide
theorem test_bitsToBytes_two :
    outputs (exec .bitsToBytes (onBits (bits [0, 1, 1, 0, 0, 0, 0, 1, 0, 1, 1, 0, 0, 0, 1, 0]) (blank 2))) =
      some { okay with rBytes := some [0x61, 0x62] } := by decide
theorem test_bitsToBytes_seven :
    outputs (exec .bitsToBytes (onBits (bits [0, 0, 0, 0, 0, 0, 0]) (blank 2))) = some (failed 1 7 (some 8) none) := by
  decide
/-- `PAD A_BITS=b"10110", N=3`: the bits beyond `L` are ignored. -/
theorem test_pad_partial :
    outputs (exec .pad (onBits (bits [1, 0, 1, 1, 0]) (onN 3 (blank 2)))) =
      some { okay with
        rBits := some (bits [1, 0, 1, 1] ++ List.replicate 444 false ++ List.replicate 62 false ++ bits [1, 1]) } := by
  decide +kernel
/-- The overflow check comes before the buffer check. -/
theorem test_pad_overflow_first :
    outputs (exec .pad (onBits [] (onN (2 ^ 64) (blank 2)))) = some (failed 3 18446744073709551616 none none) := by decide
theorem test_segment_pairs :
    outputs (exec .segment (onBits (bits [1, 1, 0, 1, 0, 0]) (onM 2 (blank 2)))) =
      some { okay with rBlocks := some [bits [1, 1], bits [0, 1], bits [0, 0]] } := by decide
theorem test_segment_width_zero :
    outputs (exec .segment (onBits (bits [1, 1, 0]) (onM 0 (blank 2)))) = some (failed 4 3 (some 1) (some 0)) := by decide
theorem test_fit_fills :
    outputs (exec .fit (onBlocks [bits [1, 0, 1, 1]] (onM 4 (blank 2)))) =
      some { okay with rBlocks := some [bits [1, 0, 1, 1], bits [0, 0, 0, 0]] } := by decide
/-- The lowest wrong index is reported, before the capacity. -/
theorem test_fit_width_first :
    outputs (exec .fit (onBlocks [bits [1], bits [1, 0], bits [1, 0, 1]] (onM 2 (blank 2)))) =
      some (failed 4 1 (some 2) (some 0)) := by decide
theorem test_tblock_crossing :
    outputs (exec .tblock (onN 447 (blank 2))) = some { okay with rNum := some 1 } ∧
    outputs (exec .tblock (onN 448 (blank 2))) = some { okay with rNum := some 2 } := by decide
theorem test_tblock_beyond :
    outputs (exec .tblock (onN (2 ^ 64) (blank 2))) = some { okay with rNum := some 36028797018963969 } := by decide
theorem test_capacity_values :
    outputs (exec .capacity (onN 0 (blank 2))) = some { okay with rNum := some 1 } ∧
    outputs (exec .capacity (onN 10 (blank 2))) = some { okay with rNum := some 1024 } := by decide
theorem test_maxlen_one : outputs (exec .maxlen (onN 1 (blank 2))) = some { okay with rNum := some 447 } := by decide
theorem test_maxlen_zero : outputs (exec .maxlen (onN 0 (blank 2))) = some (failed 4 0 (some 1) (some 0)) := by decide
/-- `DIGEST A_BLOCKS=[A0, Z], N=2`: the filler block is compressed too. The value is V-DIG's, from general knowledge. -/
theorem test_digest_second :
    (match exec .digest (onBlocks [abcBlock, List.replicate 512 false] (onN 2 (blank 2))) with
      | .next t => outputs (exec .bitsToBytes { t with aBits := t.out.rDigest })
      | _ => none) =
      some { okay with
        rBytes := some (bigEndian 32 0x260d55e8762a604a8799fb71e78447a70582a83dee02e2d71b0fcd812920ab8f) } := by decide +kernel
theorem test_digest_selector :
    outputs (exec .digest (onBlocks [abcBlock, List.replicate 512 false] (onN 3 (blank 2)))) =
      some (failed 4 3 (some 1) (some 2)) := by decide +kernel
theorem test_format_abc :
    outputs (exec .format (onBits abc (onN 24 (blank 2)))) =
      some { okay with rBlocks := some [abcBlock, List.replicate 512 false], rTblock := some 1 } := by decide +kernel
/-- The capacity check comes before the buffer check. -/
theorem test_format_capacity_first :
    outputs (exec .format (onBits [] (onN 1000 (blank 1)))) = some (failed 2 1000 (some 3) (some 1)) := by decide
/-- `HASH A_BITS=repeat("a",56), N=448` on `C = 2`: two real blocks. The value is V-HASH's, from general knowledge. -/
theorem test_hash_two_blocks :
    (match exec .hash (onBits (letters 56) (onN 448 (blank 2))) with
      | .next t => (t.out.rTblock, outputs (exec .bitsToBytes { t with aBits := t.out.rDigest }))
      | _ => (none, none)) =
      (some 2, some { okay with
        rBytes := some (bigEndian 32 0xb35439a4ac6f0948b6d6f9e3c6af0f5f590ce20f1bde7090ef7970686ec6738a) }) := by decide +kernel
theorem test_hash_capacity :
    outputs (exec .hash (onBits (letters 56) (onN 448 (blank 1)))) = some (failed 2 448 (some 2) (some 1)) := by
  decide +kernel

/-! ### Steps -/

/-- A step runs the transaction in front; the next copies its result (P2, steps 1 and 2). -/
theorem test_step_copies_result :
    (match step { blank 1 with host := runAll [{ cmd := 7#16, n := some (.value 0) }, { cmd := 8#16, n := some .rNum }] } with
      | .next t => outputs (step t)
      | _ => none) = some { okay with rNum := some 447 } := by decide
/-- Copying a result that holds no value faults (R25). -/
theorem test_step_absent_result :
    (match step { blank 1 with host := runAll [{ cmd := 8#16, n := some .rNum }] } with
      | .fault f => f == .resultAbsent .rNum
      | _ => false) = true := by decide
theorem test_step_reset :
    outputs (step { blank 1 with out := { okay with rNum := some 1 }, host := [.reset] }) = some Outputs.noValue := by decide
/-- A word placed by `withFetchWord` is what the next step runs, `FORMAT` and a reserved word among them. -/
theorem test_withFetchWord :
    (outputs (step (State.reset.withFetchWord 16 0x000A))).map (fun o => (o.status, o.rTblock)) = some (some 0#3, some 1) ∧
    outputs (step (State.reset.withFetchWord 16 0x000C)) = some (failed 5 12 none none) := by decide +kernel
theorem test_decodeTableWord :
    decodeTableWord 16 0x000B = some .hash ∧ decodeTableWord 16 0x001B = none ∧ decodeTableWord 16 0 = none := by decide

/-! ### Witnesses: for each statement with hypotheses, values that meet them together, clause by clause

`s2` and `s3` of a statement are states whose ports take an earlier result. -/

/-- The operands of `PAD`, `FORMAT` and `HASH` on capacity `c`. -/
abbrev message (c : Nat) (a : Bits) (len : Nat) (h : 1 ≤ c := by decide) : State := onBits a (onN len (blank c h))

/-- The ports hold these operands. -/
abbrev holdsMessage (s : State) (a : Bits) (len : Nat) : Prop := s.aBits = some a ∧ s.n = some len

/-- The hypotheses of the statements about a `PAD` that succeeds. -/
abbrev padAccepts (s : State) (a : Bits) (len : Nat) : Prop :=
  holdsMessage s a len ∧ len < 2 ^ 64 ∧ len ≤ a.length

/-- The hypotheses of the statements about a `FORMAT` or `HASH` that succeeds. -/
abbrev formatAccepts (s : State) (a : Bits) (len : Nat) : Prop :=
  padAccepts s a len ∧ (len + 64) / 512 + 1 ≤ s.inst.capacity

theorem witness_ReservedWordRaisesReservedEncoding :
    ((16 ≤ (0x0010#16).toNat ∧ 16 ≤ (0xFFFF#16).toNat ∧ (0x0000#16).toNat = 0 ∧ 12 ≤ (0x000C#16).toNat ∧
      (0x000F#16).toNat ≤ 15) ∧ State.reset.inst.lenWidth = none ∧ (0xFFFF#16).toNat < 2 ^ 16) ∧
    (presenting { cmd := 0xFFFF#16 }).host = [.run { cmd := 0xFFFF#16 }] ∧
    present { cmd := 0xFFFF#16 } ((presenting { cmd := 0xFFFF#16 }).setHost []) = .ok { blank 2 with cmd := some 0xFFFF#16 } :=
  ⟨by decide, rfl, rfl⟩

theorem witness_StepRunsDecodedInstruction :
    ∃ (s s' : State) (t : Transaction), s.host = [.run t] ∧ present t (s.setHost []) = .ok s' ∧
      decode t.cmd = .ok .tblock ∧ s.inst.unbounded :=
  ⟨(blank 2).setHost [.run { cmd := 6#16, n := some (.value 0) }],
    { blank 2 with cmd := some 6#16, n := some 0 }, { cmd := 6#16, n := some (.value 0) }, rfl, rfl, by decide, rfl, rfl⟩

/-- Every port, driven with a value, with a copy, and not at all. -/
theorem witness_PresentDrivesInputPorts :
    (present ⟨1#16, some (.value []), some (.value []), some (.value []), some (.value 0), some (.value 0)⟩
      (blank 2)).isOk = true ∧
    (present { cmd := 1#16 } (blank 2)).isOk = true ∧
    (present ⟨1#16, some .rBits, some .rBytes, some .rBlocks, some .rNum, some .rTblock⟩
      ((blank 2).setOut ⟨none, some [], some [], some [], some 0, some 1, none, none, none, none⟩)).isOk = true ∧
    (present { cmd := 1#16, aBits := some .rDigest, n := some .rTblock, m := some .rNum }
      ((blank 2).setOut ⟨none, none, none, none, some 0, some 1, some [], none, none, none⟩)).isOk = true := by decide

/-- Each of the eight copies, of a port without a value, in front of a reserved word. -/
theorem witness_CopyOfAbsentResultFaults :
    faultOf (step (presenting { cmd := 0#16, aBits := some .rBits })) = some (.resultAbsent .rBits) ∧
    faultOf (step (presenting { cmd := 0#16, aBits := some .rDigest })) = some (.resultAbsent .rDigest) ∧
    faultOf (step (presenting { cmd := 0#16, aBytes := some .rBytes })) = some (.resultAbsent .rBytes) ∧
    faultOf (step (presenting { cmd := 0#16, aBlocks := some .rBlocks })) = some (.resultAbsent .rBlocks) ∧
    faultOf (step (presenting { cmd := 0#16, n := some .rNum })) = some (.resultAbsent .rNum) ∧
    faultOf (step (presenting { cmd := 0#16, n := some .rTblock })) = some (.resultAbsent .rTblock) ∧
    faultOf (step (presenting { cmd := 0#16, m := some .rNum })) = some (.resultAbsent .rNum) ∧
    faultOf (step (presenting { cmd := 0#16, m := some .rTblock })) = some (.resultAbsent .rTblock) := by decide

theorem witness_ResetLeavesNoValue : ((blank 2).setHost [.reset]).host = .reset :: [] := rfl

theorem witness_StepNeverChangesParameters : ∃ t : State, step ((blank 2).setHost [.reset]) = .next t := ⟨_, rfl⟩

/-- With finite widths, the narrowest bus that holds two blocks and the widest that does not; and a block space of 1. -/
theorem witness_InstanceHasRequestedCapacity :
    (∃ p, elaborate ⟨.blocks 2, Sha256.iv, .external 0, some 65, some 1024⟩ = .ok p) ∧
    elaborate ⟨.blocks 2, Sha256.iv, .external 0, some 65, some 1023⟩ = .error .busTooNarrow ∧
    elaborate ⟨.blocks 0, Sha256.iv, .standard, some 65, some 0⟩ = .error .noCapacity ∧
    (∃ p, elaborate ⟨.blockSpace 0, Sha256.iv, .standard, some 65, some 512⟩ = .ok p) ∧ (onN 0 (blank 1)).n = some 0 :=
  ⟨⟨_, rfl⟩, rfl, rfl, ⟨_, rfl⟩, rfl⟩

theorem witness_BytesToBitsRule :
    (onBytes [0x80, 0x01] (blank 2)).aBytes = some [0x80, 0x01] ∧ ([0x80, 0x01] : Bytes)[1]? = some 0x01 ∧ (0 : Nat) < 8 ∧
      (7 : Nat) < 8 := by decide

theorem witness_BitsToBytesRule :
    (onBits (List.replicate 7 true) (blank 2)).aBits = some (List.replicate 7 true) ∧
      (List.replicate 7 true).length % 8 ≠ 0 ∧ (List.replicate 8 true).length % 8 = 0 ∧ ([] : Bits).length % 8 = 0 := by
  decide

theorem witness_SerializerRoundTrip :
    (∃ s t s' : State, s.aBytes = some [0x61] ∧ exec .bytesToBits s = .next t ∧ s'.aBits = t.out.rBits) ∧
    (∃ s t s' : State, s.aBits = some (zeros 8) ∧ (zeros 8).length % 8 = 0 ∧ exec .bitsToBytes s = .next t ∧
      s'.aBytes = t.out.rBytes) :=
  ⟨⟨onBytes [0x61] (blank 2), _, { blank 2 with aBits := some (bytesToBits [0x61]) }, rfl, rfl, rfl⟩,
    ⟨onBits (zeros 8) (blank 2), _, { blank 2 with aBytes := (bitsToBytesOutputs (zeros 8)).rBytes }, rfl, rfl, rfl, rfl⟩⟩

theorem witness_PadRule :
    (holdsMessage (message 2 [] (2 ^ 64)) [] (2 ^ 64) ∧ 2 ^ 64 ≤ 2 ^ 64) ∧
    (holdsMessage (message 2 [] (2 ^ 64 - 1)) [] (2 ^ 64 - 1) ∧ 2 ^ 64 - 1 < 2 ^ 64 ∧ ([] : Bits).length < 2 ^ 64 - 1) ∧
    padAccepts (message 2 [true] 1) [true] 1 ∧ padAccepts (message 2 [] 0) [] 0 := by decide

theorem witness_PadLengthAndLeastZeroRun :
    padAccepts (message 2 [] 0) [] 0 ∧ padAccepts (message 2 (zeros 448) 448) (zeros 448) 448 := by decide +kernel

theorem witness_PadBitClosedForm :
    padAccepts (message 2 (zeros 447) 447) (zeros 447) 447 ∧ 512 = 512 * ((447 + 64) / 512 + 1) ∧ 446 < 447 ∧
      447 < 448 ∧ 512 - 64 ≤ 448 ∧ 511 < 512 := by decide +kernel

theorem witness_PadReadsOnlyLogicalLength :
    holdsMessage (message 2 [true] 1) [true] 1 ∧ holdsMessage (message 2 [true, true] 1) [true, true] 1 ∧
      1 ≤ [true].length ∧ 1 ≤ [true, true].length ∧ [true].take 1 = [true, true].take 1 := by decide

/-- Both values of the crossing flag, at its boundary. -/
theorem witness_PadShapeFollowsResidue :
    (padAccepts (message 2 (zeros 447) 447) (zeros 447) 447 ∧ 0 = if 448 ≤ 447 % 512 then 1 else 0) ∧
    (padAccepts (message 2 (zeros 448) 448) (zeros 448) 448 ∧ 1 = if 448 ≤ 448 % 512 then 1 else 0) := by decide +kernel

theorem witness_SegmentRule :
    (onBits [true] (onM 0 (blank 2))).aBits = some [true] ∧ (onBits [true] (onM 0 (blank 2))).m = some 0 ∧
      (1 ≤ 2 ∧ [true].length % 2 ≠ 0) ∧ (1 ≤ 1 ∧ [true].length % 1 = 0) ∧ (1 ≤ 5 ∧ ([] : Bits).length % 5 = 0) := by decide

theorem witness_SegmentPreservesOrder :
    (onBits [true] (onM 1 (blank 2))).aBits = some [true] ∧ (onBits [true] (onM 1 (blank 2))).m = some 1 ∧ 1 ≤ 1 ∧
      [true].length % 1 = 0 := by decide

theorem witness_FitRule :
    (onBlocks [[true]] (onM 1 (blank 2))).aBlocks = some [[true]] ∧ (onBlocks [[true]] (onM 1 (blank 2))).m = some 1 ∧
    (1 ≤ 2 ∧ ([[true]] : Blocks)[0]? = some [true] ∧ [true].length ≠ 2 ∧ ∀ y ∈ ([[true]] : Blocks).take 0, y.length = 2) ∧
    (1 ≤ 1 ∧ (∀ x ∈ ([[true], [true], [true]] : Blocks), x.length = 1) ∧
      (blank 2).inst.capacity < ([[true], [true], [true]] : Blocks).length) ∧
    (1 ≤ 1 ∧ (∀ x ∈ ([[true], [true]] : Blocks), x.length = 1) ∧
      ([[true], [true]] : Blocks).length ≤ (blank 2).inst.capacity) := by decide

theorem witness_FitIsIdempotent :
    ∃ s t s' : State, exec .fit s = .next t ∧ t.out.rBlocks = some [[true], [false]] ∧ s'.inst = s.inst ∧
      s'.aBlocks = some [[true], [false]] ∧ s'.m = s.m :=
  ⟨onBlocks [[true]] (onM 1 (blank 2)), _, onBlocks [[true], [false]] (onM 1 (blank 2)), rfl, by decide, rfl, rfl, rfl⟩

theorem witness_TblockRule : (onN 0 (blank 2)).n = some 0 ∧ (onN (2 ^ 64) (blank 2)).n = some (2 ^ 64) := by decide
theorem witness_CapacityRule : (onN 0 (blank 2)).n = some 0 := rfl
theorem witness_MaxlenRule : (onN 0 (blank 2)).n = some 0 ∧ (onN 1 (blank 2)).n = some 1 ∧ 1 ≤ 1 := by decide

theorem witness_TblockMatchesPadAndSegment :
    ∃ (s s' t : State) (a : Bits), s.n = some 0 ∧ s.aBits = some a ∧ 0 < 2 ^ 64 ∧ 0 ≤ a.length ∧ exec .pad s = .next t ∧
      s'.aBits = t.out.rBits ∧ s'.m = some 512 :=
  ⟨message 2 [] 0, { blank 2 with aBits := (padOutputs [] 0).rBits, m := some 512 }, _, [], rfl, rfl, by decide, by decide,
    rfl, rfl, rfl⟩

/-- On `C = 1`, the last length that fits and the first that does not. -/
theorem witness_MaxlenIsExactFitBound :
    (∃ v, (onN 1 (blank 1)).n = some (blank 1).inst.capacity ∧ exec .maxlen (onN 1 (blank 1)) =
      .next ((onN 1 (blank 1)).setOut { Outputs.noValue with status := some 0#3, rNum := some v }) ∧ 447 ≤ v ∧ v < 448) ∧
    padAccepts (message 1 (zeros 447) 447) (zeros 447) 447 ∧ padAccepts (message 1 (zeros 448) 448) (zeros 448) 448 :=
  ⟨⟨447, rfl, rfl, by decide, by decide⟩, by decide +kernel, by decide +kernel⟩

theorem witness_ByteMessageBound :
    padAccepts (message 1 (zeros 448) (8 * 56)) (zeros 448) (8 * 56) ∧ 56 + 8 = 64 * (blank 1).inst.capacity ∧
      55 + 9 ≤ 64 * (blank 1).inst.capacity := by decide +kernel

theorem witness_ChainingValuesFollowCompress : ([zeros 512] : Blocks)[0]? = some (zeros 512) := rfl

theorem witness_DigestRule :
    (onBlocks [zeros 512] (onN 1 (blank 2))).aBlocks = some [zeros 512] ∧ (onBlocks [zeros 512] (onN 1 (blank 2))).n = some 1 ∧
    (([zeros 511] : Blocks)[0]? = some (zeros 511) ∧ (zeros 511).length ≠ 512 ∧
      ∀ y ∈ ([zeros 511] : Blocks).take 0, y.length = 512) ∧
    ((∀ x ∈ ([zeros 512] : Blocks), x.length = 512) ∧ 0 < 1 ∧ ([zeros 512] : Blocks).length < 2) ∧
    1 ≤ 1 ∧ 1 ≤ ([zeros 512] : Blocks).length := by decide +kernel

theorem witness_DigestBitOrder :
    Sha256.iv.words[7]? = some 0x5be0cd19#32 ∧ 0 < 32 ∧ 31 < 32 ∧
      (onBits (digestBits Sha256.iv) (blank 2)).aBits = some (digestBits Sha256.iv) := by decide +kernel

theorem witness_DigestIsFixedShapeMultiplexer :
    (onBlocks [zeros 512] (onN 1 (blank 2))).aBlocks = some [zeros 512] ∧ (onBlocks [zeros 512] (onN 1 (blank 2))).n = some 1 ∧
      (∀ x ∈ ([zeros 512] : Blocks), x.length = 512) ∧ 1 ≤ 1 ∧ 1 ≤ ([zeros 512] : Blocks).length := by decide +kernel

/-- Two filler blocks that differ, behind one real block. -/
theorem witness_DigestIgnoresFillerBlocks :
    ∃ (s s' : State) (b b' : Blocks), s.aBlocks = some b ∧ s'.aBlocks = some b' ∧ s.n = some 1 ∧ s'.n = some 1 ∧
      s'.inst.iv = s.inst.iv ∧ s'.inst.compress = s.inst.compress ∧ (∀ x ∈ b, x.length = 512) ∧
      (∀ x ∈ b', x.length = 512) ∧ 1 ≤ 1 ∧ 1 ≤ b.length ∧ 1 ≤ b'.length ∧ b.take 1 = b'.take 1 ∧ b ≠ b' :=
  ⟨onBlocks [zeros 512, zeros 512] (onN 1 (blank 2)), onBlocks [zeros 512, List.replicate 512 true] (onN 1 (blank 2)), _, _,
    rfl, rfl, rfl, rfl, rfl, rfl, by decide +kernel⟩

/-- One message for each clause, on `C = 1`. -/
theorem witness_FormatRule :
    (holdsMessage (message 1 [] (2 ^ 64)) [] (2 ^ 64) ∧ 2 ^ 64 ≤ 2 ^ 64) ∧
    (holdsMessage (message 1 [] 448) [] 448 ∧ 448 < 2 ^ 64 ∧ (blank 1).inst.capacity < (448 + 64) / 512 + 1) ∧
    (holdsMessage (message 1 [] 447) [] 447 ∧ 447 < 2 ^ 64 ∧ (447 + 64) / 512 + 1 ≤ (blank 1).inst.capacity ∧
      ([] : Bits).length < 447) ∧
    formatAccepts (message 1 (zeros 447) 447) (zeros 447) 447 := by decide +kernel

theorem witness_FormatIsFixedShapeDatapath :
    formatAccepts (message 1 (zeros 447) 447) (zeros 447) 447 ∧ 512 = 512 * ((447 + 64) / 512 + 1) ∧
      511 < 512 * (blank 1).inst.capacity ∧ formatAccepts (message 2 [] 0) [] 0 := by decide +kernel

theorem witness_FormatRealAndFillerBlocks :
    ∃ s t : State, s.n = some 0 ∧ exec .format s = .next t ∧ t.out.status = some 0#3 :=
  ⟨message 2 [] 0, _, rfl, rfl, by decide +kernel⟩

/-- The three stages on the empty message, where `FIT` gives `OK`. -/
theorem witness_FormatIsPadSegmentFit :
    ∃ s s2 s3 t1 t2 t3 : State, s.n = some 0 ∧ s.aBits = some [] ∧ exec .pad s = .next t1 ∧ t1.out.status = some 0#3 ∧
      s2.aBits = t1.out.rBits ∧ s2.m = some 512 ∧ exec .segment s2 = .next t2 ∧ s3.inst = s.inst ∧
      s3.aBlocks = t2.out.rBlocks ∧ s3.m = some 512 ∧ exec .fit s3 = .next t3 ∧ t3.out.status = some 0#3 :=
  have h1 : padOutputs [] 0 = { okay with rBits := some (padded [] 0) } := by decide +kernel
  have h2 : segmentOutputs (padded [] 0) 512 = { okay with rBlocks := some (chunks 512 1 (padded [] 0)) } := by
    decide +kernel
  have h3 : fitOutputs 2 (chunks 512 1 (padded [] 0)) 512 =
      { okay with rBlocks := some (fillTo 2 512 (chunks 512 1 (padded [] 0))) } := by decide +kernel
  ⟨message 2 [] 0, onM 512 (onBits (padded [] 0) (blank 2)), onM 512 (onBlocks (chunks 512 1 (padded [] 0)) (blank 2)),
    _, _, _, rfl, rfl, exec_of_answers (i := .pad) ⟨_, _, rfl, rfl, h1.symm⟩, rfl, rfl, rfl,
    exec_of_answers (i := .segment) ⟨_, _, rfl, rfl, h2.symm⟩, rfl, rfl, rfl,
    exec_of_answers (i := .fit) ⟨_, _, rfl, rfl, h3.symm⟩, rfl⟩

/-- The three stages on 448 bits and `C = 1`, where the two blocks do not fit and `FIT` does not give `OK`. -/
theorem witness_FormatIsPadSegmentFit_capacity :
    ∃ s s2 s3 t1 t2 t3 : State, s.n = some 448 ∧ s.aBits = some (zeros 448) ∧ exec .pad s = .next t1 ∧
      t1.out.status = some 0#3 ∧ s2.aBits = t1.out.rBits ∧ s2.m = some 512 ∧ exec .segment s2 = .next t2 ∧
      s3.inst = s.inst ∧ s3.aBlocks = t2.out.rBlocks ∧ s3.m = some 512 ∧ exec .fit s3 = .next t3 ∧
      t3.out.status ≠ some 0#3 :=
  have h1 : padOutputs (zeros 448) 448 = { okay with rBits := some (padded (zeros 448) 448) } := by decide +kernel
  have h2 : segmentOutputs (padded (zeros 448) 448) 512 =
      { okay with rBlocks := some (chunks 512 2 (padded (zeros 448) 448)) } := by decide +kernel
  have h3 : fitOutputs 1 (chunks 512 2 (padded (zeros 448) 448)) 512 = failed 2 2 (some 2) (some 1) := by decide +kernel
  ⟨message 1 (zeros 448) 448, onM 512 (onBits (padded (zeros 448) 448) (blank 1)),
    onM 512 (onBlocks (chunks 512 2 (padded (zeros 448) 448)) (blank 1)), _, _, _, rfl, rfl,
    exec_of_answers (i := .pad) ⟨_, _, rfl, rfl, h1.symm⟩, rfl, rfl, rfl,
    exec_of_answers (i := .segment) ⟨_, _, rfl, rfl, h2.symm⟩, rfl, rfl, rfl,
    exec_of_answers (i := .fit) ⟨_, _, rfl, rfl, h3.symm⟩, by decide⟩

theorem witness_HashRule :
    holdsMessage (message 2 abc 24) abc 24 ∧ holdsMessage (message 2 [] 24) [] 24 := by decide

theorem witness_HashIsFormatThenDigest :
    ∃ s t s' : State, exec .format s = .next t ∧ t.out.status = some 0#3 ∧ s'.inst = s.inst ∧ s'.aBlocks = t.out.rBlocks ∧
      s'.n = t.out.rTblock :=
  ⟨message 2 [] 0, _,
    { blank 2 with aBlocks := (formatOutputs 2 [] 0).rBlocks, n := (formatOutputs 2 [] 0).rTblock },
    rfl, by decide +kernel, rfl, rfl, rfl⟩

theorem witness_HashIsFixedShapeDatapath : formatAccepts (message 1 (zeros 447) 447) (zeros 447) 447 := by decide +kernel

theorem witness_HashDoesNotDependOnCapacity :
    formatAccepts (message 1 abc 24) abc 24 ∧ formatAccepts (message 4 abc 24) abc 24 ∧
      (message 4 abc 24).inst.iv = (message 1 abc 24).inst.iv ∧
      (message 4 abc 24).inst.compress = (message 1 abc 24).inst.compress := by decide

theorem witness_HashEqualsReferenceSha256 :
    (message 1 (bytesToBits [0x61]) 8).inst.iv = Sha256.iv ∧ (message 1 (bytesToBits [0x61]) 8).inst.compress = .standard ∧
      holdsMessage (message 1 (bytesToBits [0x61]) 8) (bytesToBits [0x61]) (8 * ([0x61] : Bytes).length) ∧
      8 * ([0x61] : Bytes).length < 2 ^ 64 ∧ 8 * ([0x61] : Bytes).length + 65 ≤ 512 * (blank 1).inst.capacity := by decide

theorem witness_Sha256MacroComputesReferenceDigest :
    (blank 1).inst.iv = Sha256.iv ∧ (blank 1).inst.compress = .standard ∧ (blank 1).inst.unbounded ∧
      8 * ([0x61] : Bytes).length < 2 ^ 64 ∧ 8 * ([0x61] : Bytes).length + 65 ≤ 512 * (blank 1).inst.capacity ∧
      ((blank 1).setHost (runAll (expand (.sha256 [0x61])))).host = runAll (expand (.sha256 [0x61])) ++ [] :=
  ⟨rfl, rfl, ⟨rfl, rfl⟩, by decide, by decide, rfl⟩

theorem witness_PadsegMacroGivesUnfittedBlocks :
    (blank 1).inst.unbounded ∧ 0 < 2 ^ 64 ∧ 0 ≤ ([] : Bits).length ∧
      ((blank 1).setHost (runAll (expand (.padseg [] 0)))).host = runAll (expand (.padseg [] 0)) ++ [] :=
  ⟨⟨rfl, rfl⟩, by decide, by decide, rfl⟩

/-- An operation that goes on, in success and in each error: the hypothesis of `StatusTable`, `ResultsOrErrorNeverBoth`, the
four statements of causes, and `ExecFrame`. -/
theorem witness_exec_next :
    (∃ t, exec .bitsToBytes (onBits [true] (blank 2)) = .next t ∧ t.out = failed 1 1 (some 8) none) ∧
    (∃ t, exec .format (message 1 [] 448) = .next t ∧ t.out = failed 2 448 (some 2) (some 1)) ∧
    (∃ t, exec .pad (message 1 [] (2 ^ 64)) = .next t ∧ t.out = failed 3 (2 ^ 64) none none) ∧
    (∃ t, exec .fit (onBlocks [] (onM 0 (blank 2))) = .next t ∧ t.out = failed 4 0 (some 1) (some 0)) ∧
    (∃ t, exec .tblock (onN 0 (blank 2)) = .next t ∧ t.out = { okay with rNum := some 1 }) :=
  ⟨⟨_, rfl, by decide⟩, ⟨_, rfl, by decide⟩, ⟨_, rfl, by decide⟩, ⟨_, rfl, by decide⟩, ⟨_, rfl, by decide⟩⟩

theorem witness_StatusTable : ∃ t, exec .tblock (onN 0 (blank 2)) = .next t := ⟨_, rfl⟩
theorem witness_ResultsOrErrorNeverBoth : ∃ t, exec .maxlen (onN 0 (blank 2)) = .next t := ⟨_, rfl⟩
theorem witness_AlignmentErrorCauses : ∃ t, exec .bitsToBytes (onBits [true] (blank 2)) = .next t := ⟨_, rfl⟩
theorem witness_CapacityExceededCauses : ∃ t, exec .format (message 1 [] 448) = .next t := ⟨_, rfl⟩
theorem witness_LengthOverflowCauses : ∃ t, exec .pad (message 1 [] (2 ^ 64)) = .next t := ⟨_, rfl⟩
theorem witness_PreconditionCauses : ∃ t, exec .fit (onBlocks [] (onM 0 (blank 2))) = .next t := ⟨_, rfl⟩
theorem witness_ExecFrame : ∃ t, exec .capacity (onN 4 (blank 2)) = .next t := ⟨_, rfl⟩

theorem witness_ExecCompletesExactlyWhenOperandsDriven :
    (message 2 [] 0).presents .hash ∧ ¬ (blank 2).presents .hash :=
  ⟨by intro p _; cases p <;> first | rfl | contradiction, fun h => absurd (h .n rfl) (by decide)⟩

/-- Two states that differ in every port `TBLOCK` does not read. -/
theorem witness_UnreadPortsAreIgnored :
    ∃ s s' : State, s'.inst = s.inst ∧ (∀ p, readsPort .tblock p = true → State.agreeOn p s s') ∧ s ≠ s' :=
  ⟨onN 0 (blank 2), onBits [true] (onBytes [0] (onBlocks [[]] (onM 7 (onN 0 (blank 2))))), rfl,
    by intro p _; cases p <;> first | rfl | contradiction, by decide⟩

/-- The same transaction after reset and after another one, presented twice. -/
theorem witness_OutcomeIndependentOfEarlierTransactions :
    ∃ (s s' : State) (t : Transaction) (u : State), t.selfContained ∧ s'.inst = s.inst ∧ s.host = .run t :: [.run t] ∧
      s'.host = .run t :: [] ∧ s.out ≠ s'.out ∧ step s = .next u :=
  ⟨(blank 2).setHost [.run { cmd := 6#16, n := some (.value 0) }, .run { cmd := 6#16, n := some (.value 0) }],
    ((blank 2).setOut { okay with rNum := some 7 }).setHost [.run { cmd := 6#16, n := some (.value 0) }],
    { cmd := 6#16, n := some (.value 0) }, _, by unfold Transaction.selfContained; decide, rfl, rfl, rfl, by decide, rfl⟩

theorem witness_StepKeepsInvariant : ∃ s t : State, s.Inv ∧ step s = .next t ∧ t.out.rNum = some 1 :=
  ⟨(blank 2).setHost [.run { cmd := 6#16, n := some (.value 0) }], _, ⟨.inl rfl, nofun, nofun, nofun⟩, rfl, rfl⟩

/-- An error on the ports meets the invariant too. -/
theorem witness_InvariantExcludesReservedStatus :
    ∃ s : State, s.Inv ∧ s.out.status = some 5#3 :=
  ⟨(blank 2).setOut (failed 5 12 none none),
    ⟨.inr (.inr ⟨.reservedEncoding, by decide, rfl, fun r => by cases r <;> rfl, rfl⟩), nofun, nofun, nofun⟩, rfl⟩

/-- An instance with unbounded ports, and a step of it with each of the two faults. -/
theorem witness_UnboundedPortsNeverRefuse :
    (blank 2).inst.unbounded ∧
    faultOf (step (presenting { cmd := 6#16, n := some .rTblock })) = some (.resultAbsent .rTblock) ∧
    faultOf (step (presenting { cmd := 3#16, aBits := some (.value []) })) = some (.operandAbsent .n) :=
  ⟨⟨rfl, rfl⟩, by decide, by decide⟩

/-- An instance with finite ports, and an operand of each kind just too wide for it. -/
theorem witness_TooWideOperandIsRefused :
    ∃ (p : Instance) (s : State), s.inst = p ∧ p.lenWidth = some 65 ∧ p.busBits = some 512 ∧ s.n = some (2 ^ 65) ∧
      s.m = some (2 ^ 65) ∧ s.aBits = some (zeros 513) ∧ s.aBytes = some (List.replicate 65 0) ∧
      s.aBlocks = some [zeros 512, [true]] ∧ readsPort .pad .n = true ∧ s.operandFits .n = false :=
  ⟨⟨1, by decide, Sha256.iv, .standard, some 65, some 512, rfl⟩,
    ⟨_, none, some (zeros 513), some (List.replicate 65 0), some [zeros 512, [true]], some (2 ^ 65), some (2 ^ 65),
      Outputs.noValue, []⟩, rfl, rfl, rfl, rfl, rfl, rfl, rfl, rfl, rfl, by decide⟩

/-- Results at the edge of those ports: `CAPACITY` of 64 and of 65 on 65-bit numbers, `PAD` into one block and into
two, and a reserved word on four-bit and on three-bit numbers. -/
theorem witness_TooWideOperandIsRefused_results :
    outputs (execChecked .capacity (onN 64 (narrow 65))) = some { okay with rNum := some (2 ^ 64) } ∧
    refusalOf (execChecked .capacity (onN 65 (narrow 65))) = some .resultTooWide ∧
    (outputs (execChecked .pad (onBits (zeros 448) (onN 447 (narrow 65))))).isSome = true ∧
    refusalOf (execChecked .pad (onBits (zeros 448) (onN 448 (narrow 65)))) = some .resultTooWide ∧
    outputs (transact 0x000C#16 (narrow 4)) = some (failed 5 12 none none) ∧ decode 0x000C#16 = .error .reservedCode ∧
    refusalOf (transact 0x000C#16 (narrow 3)) = some .resultTooWide := by decide +kernel

/-- Every port named, each value form and each copy, and a command word; the driven values are written out from R52's table. -/
theorem witness_AssemblerAcceptsExactlyValidText :
    assemble ⟨.op "PAD", [("N", .num 16), ("A_BITS", .seq (.hex [0x61])), ("A_BYTES", .seq (.ascii ['a', 'b'])),
        ("A_BLOCKS", .list [.bin [true, false], .zeros 2]), ("M", .result .rTblock)]⟩ =
      .ok
        { cmd := 3#16, n := some (.value 16), aBits := some (.value (bits [0, 1, 1, 0, 0, 0, 0, 1])),
          aBytes := some (.value [0x61, 0x62]), aBlocks := some (.value [bits [1, 0], bits [0, 0]]), m := some .rTblock } ∧
    assemble ⟨.cmd 0x000C#16, [("A_BYTES", .seq (.rep ['a'] 2)), ("A_BITS", .result .rDigest), ("M", .num 0),
        ("A_BLOCKS", .result .rBlocks), ("N", .result .rNum)]⟩ =
      .ok
        { cmd := 12#16, aBytes := some (.value [0x61, 0x61]), aBits := some .rDigest, m := some (.value 0),
          aBlocks := some .rBlocks, n := some .rNum } ∧
    assemble ⟨.op "HASH", [("A_BYTES", .result .rBytes), ("A_BITS", .result .rBits), ("N", .result .rTblock),
        ("M", .result .rNum)]⟩ =
      .ok { cmd := 11#16, aBytes := some .rBytes, aBits := some .rBits, n := some .rTblock, m := some .rNum } ∧
    isAscii ['a', Char.ofNat 127] = true ∧ (TextSeq.rep ['a'] 0).givesBytes = true := by decide

theorem witness_BoundaryAdmitsExactlyRangedSlots :
    (3 < 2 ^ 16 ∧ 2 ∈ [0, 2] ∧ 1 < 2) ∧ (∃ u, admitRaw { cmd := 3, aBits := some [0, 1] } = .ok u) :=
  ⟨by decide, ⟨_, rfl⟩⟩

end Sys2Proof.Tests
end

section
/-! SUPPORT. The statements of 00_scope.md: a step runs the decoded operation, what the port widths refuse, and `HASH` as its
fixed shape. -/

namespace Sys2Proof.Machine

/-! ### A step that presents a transaction -/

/-- A transaction whose command word decodes is its operation, inside the checks of the port widths. -/
theorem transact_of_decode_ok {w : CmdWord} {i : Instr} (h : decode w = .ok i) (s : State) :
    transact w s = execChecked i s := by
  simp only [transact, h]

/-- A step whose transaction is presented is that transaction on the presented ports (00_scope.md R17). -/
theorem step_of_present_ok {s s' : State} {t : Transaction} {rest : List HostEvent} (hh : s.host = .run t :: rest)
    (hp : present t (s.setHost rest) = .ok s') : step s = transact t.cmd s' := by
  simp only [step, hh, runTransaction, hp]

/-- A refused step presented a transaction, and that transaction is refused on the presented ports. -/
theorem step_refused {s : State} {r : Refusal} (h : step s = .refused r) : ∃ t rest s', s.host = .run t :: rest ∧
    present t (s.setHost rest) = .ok s' ∧ transact t.cmd s' = .refused r := by
  unfold step at h; split at h
  · cases h
  · cases h
  · next t rest hh =>
    unfold runTransaction at h; split at h
    · cases h
    · next s' hp => exact ⟨t, rest, s', hh, hp, h⟩

/-- On unbounded ports no transaction is refused: a reserved word's number fits, and an operation is run unchecked. -/
theorem transact_ne_refused_of_unbounded {s : State} (hu : s.inst.unbounded) (w : CmdWord) (r : Refusal) :
    transact w s ≠ .refused r := by
  cases hd : decode w with
  | error e => simp [transact_reserved hd, fitsNumber_unbounded hu.1]
  | ok i => rw [transact_of_decode_ok hd, execChecked_unbounded hu]; exact exec_ne_refused i s r

/-- Settles O4: the step is the transaction it presents, and the checks of unbounded ports never act. -/
theorem stepRunsDecodedInstruction : Obligations.StepRunsDecodedInstruction := by
  refine ⟨fun s s' t rest i hh hp hd => ?_, fun s hh => by simp only [step, hh]⟩
  have hstep : step s = execChecked i s' := by rw [step_of_present_ok hh hp, transact_of_decode_ok hd]
  have hinst : s'.inst = s.inst := (present_ok hp).1
  exact ⟨hstep, fun hu => by rw [hstep, execChecked_unbounded (hinst ▸ hu)]⟩

/-- Settles O57: a refusal can only come from the transaction, which has none on unbounded ports; a fault is that of a copy
or that of the operation. -/
theorem unboundedPortsNeverRefuse : Obligations.UnboundedPortsNeverRefuse := by
  refine ⟨fun s hu r h => ?_, fun s f h => ?_⟩
  · obtain ⟨t, rest, s', -, hp, ht⟩ := step_refused h
    have hinst : s'.inst = s.inst := (present_ok hp).1
    exact transact_ne_refused_of_unbounded (hinst ▸ hu) t.cmd r ht
  · obtain ⟨t, rest, hh, hp | ⟨s', hp, ht⟩⟩ := step_fault h
    · have hc := present_fault_copies hp
      exact ⟨t, rest, hh, .inl hc⟩
    · obtain ⟨i, p, hf, hd, hr, hn⟩ := transact_fault ht
      exact ⟨t, rest, hh, .inr ⟨p, i, s', hf, hd, hr, hp, hn⟩⟩

/-! ### What does not fit a physical port (log entry 8) -/

/-- A number does not fit from `2^LEN_WIDTH` on. -/
theorem fitsNumber_eq_false {p : Instance} {v : Nat} :
    fitsNumber p v = false ↔ ∃ k, p.lenWidth = some k ∧ 2 ^ k ≤ v := by
  cases h : p.lenWidth <;> simp [fitsNumber, h]

/-- A sequence does not fit with more than `BUS_BITS` bits. -/
theorem fitsSequence_eq_false {p : Instance} {n : Nat} :
    fitsSequence p n = false ↔ ∃ k, p.busBits = some k ∧ k < n := by
  cases h : p.busBits <;> simp [fitsSequence, h]

theorem totalBits_eq_flatten_length (b : Blocks) : totalBits b = b.flatten.length := List.length_flatten.symm

/-- Some operand that the operation reads does not fit exactly when there is a first one. -/
theorem exists_operand_not_fits_iff {i : Instr} {s : State} :
    (∃ p, readsPort i p = true ∧ s.operandFits p = false) ↔ ∃ p, wideOperand i s = some p := by
  constructor
  · rintro ⟨p, hr, hf⟩
    cases hw : wideOperand i s with
    | some q => exact ⟨q, rfl⟩
    | none => simp [wideOperand_eq_none.mp hw p hr] at hf
  · rintro ⟨p, hw⟩
    exact ⟨p, wideOperand_eq_some hw⟩

/-- What it means that outputs do not fit, port by port; the shortcut for unbounded ports, on which all fit, changes nothing. -/
theorem outputsFit_eq_false {p : Instance} {o : Outputs} : outputsFit p o = false ↔
    (∃ v, (o.rNum = some v ∨ o.rTblock = some v ∨ o.errLen = some v ∨ o.errReq = some v ∨ o.errAvail = some v) ∧
      fitsNumber p v = false) ∨
    (∃ a, (o.rBits = some a ∨ o.rDigest = some a) ∧ fitsSequence p a.length = false) ∨
    (∃ b, o.rBytes = some b ∧ fitsSequence p (8 * b.length) = false) ∨
    (∃ b, o.rBlocks = some b ∧ fitsSequence p (totalBits b) = false) := by
  by_cases hu : p.unbounded
  · simp [outputsFit_unbounded hu.1 hu.2, fitsNumber_unbounded hu.1, fitsSequence_unbounded hu.2]
  · have hs : (p.lenWidth.isNone && p.busBits.isNone) = false := by
      simpa [Instance.unbounded, ← Option.isNone_iff_eq_none] using hu
    simp only [outputsFit, hs, Bool.false_or, Bool.and_eq_false_iff, Option.all_eq_false, or_and_right, exists_or]
    -- Both sides are the same nine ports, in another order.
    rw [iff_eq_eq]
    ac_rfl

/-- Outputs that do not fit, by `LEN_WIDTH` and `BUS_BITS`. -/
theorem outputsFit_eq_false_iff_widths {p : Instance} {o : Outputs} : outputsFit p o = false ↔
    (∃ k v, p.lenWidth = some k ∧ 2 ^ k ≤ v ∧ (o.rNum = some v ∨ o.rTblock = some v ∨ o.errLen = some v ∨
      o.errReq = some v ∨ o.errAvail = some v)) ∨
    (∃ k, p.busBits = some k ∧ ((∃ a, (o.rBits = some a ∨ o.rDigest = some a) ∧ k < a.length) ∨
      (∃ b, o.rBytes = some b ∧ k < 8 * b.length) ∨ (∃ b, o.rBlocks = some b ∧ k < b.flatten.length))) := by
  rw [outputsFit_eq_false]
  cases hl : p.lenWidth <;> cases hb : p.busBits <;>
    simp [fitsNumber_eq_false, fitsSequence_eq_false, totalBits_eq_flatten_length, hl, hb, and_comm]

/-- A checked operation is refused for an operand exactly when one it reads does not fit. -/
theorem execChecked_refused_operand_iff {i : Instr} {s : State} :
    (∃ p, execChecked i s = .refused (.operandTooWide p)) ↔ ∃ p, readsPort i p = true ∧ s.operandFits p = false := by
  rw [exists_operand_not_fits_iff]
  rcases execChecked_cases i s with ⟨p, hw, h⟩ | ⟨hw, f, -, h⟩ | ⟨hw, t, -, -, h⟩ | ⟨hw, t, -, -, h⟩ <;> simp [hw, h]

/-- A checked operation goes on exactly when its operands fit, the operation goes on, and its outputs fit. -/
theorem execChecked_next_iff {i : Instr} {s t : State} : execChecked i s = .next t ↔
    wideOperand i s = none ∧ exec i s = .next t ∧ outputsFit t.inst t.out = true :=
  ⟨execChecked_next, fun ⟨hw, he, hf⟩ => by simp [execChecked, hw, he, admitOutputs, hf]⟩

/-- A checked operation is refused for its result exactly when its operands fit and it goes on with outputs that do not. -/
theorem execChecked_refused_result_iff {i : Instr} {s : State} : execChecked i s = .refused .resultTooWide ↔
    wideOperand i s = none ∧ ∃ t, exec i s = .next t ∧ outputsFit t.inst t.out = false := by
  rcases execChecked_cases i s with ⟨p, hw, h⟩ | ⟨hw, f, he, h⟩ | ⟨hw, t, he, hf, h⟩ | ⟨hw, t, he, hf, h⟩
  · simp [hw, h]
  · simp [h, he]
  · simp [hw, h, he, hf]
  · simp [h, he, hf]

/-- An operation that goes on keeps the parameters. -/
theorem exec_next_inst {i : Instr} {s t : State} (h : exec i s = .next t) : t.inst = s.inst := by
  obtain ⟨o, rfl, -⟩ := exec_next h
  rfl

/-- Settles O58: each clause is the exact condition of one of the checks around an operation. -/
theorem tooWideOperandIsRefused : Obligations.TooWideOperandIsRefused := by
  intro i s
  refine ⟨execChecked_refused_operand_iff.symm, fun v h => ?_, fun v h => ?_, fun a h => ?_, fun b h => ?_, fun b h => ?_,
    fun t => ?_, ?_, fun w e h => ?_, fun o => outputsFit_eq_false_iff_widths⟩
  · simp [State.operandFits, h, fitsNumber_eq_false]
  · simp [State.operandFits, h, fitsNumber_eq_false]
  · simp [State.operandFits, h, fitsSequence_eq_false]
  · simp [State.operandFits, h, fitsSequence_eq_false]
  · simp [State.operandFits, h, fitsSequence_eq_false, totalBits_eq_flatten_length]
  · rw [execChecked_next_iff, wideOperand_eq_none]
    exact and_congr_right fun _ => and_congr_right fun he => by rw [exec_next_inst he]
  · rw [execChecked_refused_result_iff, wideOperand_eq_none]
    exact and_congr_right fun _ => exists_congr fun t => and_congr_right fun he => by rw [exec_next_inst he]
  · rw [transact_reserved h, ← fitsNumber_eq_false]
    cases fitsNumber s.inst w.toNat <;> simp

/-! ### `HASH` in its fixed shape -/

/-- The bit selection of 41_padder.md R62 is the padded sequence. -/
theorem padded_getElem?_eq_paddedBit {a : Bits} {len q : Nat} (h : len ≤ a.length) (hq : q < realEnd len) :
    (padded a len)[q]? = some (paddedBit a len q) := by
  unfold paddedBit
  unfold realEnd at hq ⊢
  split
  · next h1 => rw [padded_message h h1, List.getD_eq_getElem?_getD, List.getElem?_eq_getElem (by omega)]; rfl
  · split
    · next h2 => rw [h2, padded_stop h]
    · split
      · next h3 => exact padded_zero h (by omega) h3
      · rw [padded_suffix h (by omega) hq, bitOf_eq_testBit]

/-- A real block of the fixed shape is a chunk of the padded sequence. -/
theorem fixedFormat_real_block {a : Bits} {len i : Nat} (h : len ≤ a.length) (hi : i < tBlock len) :
    (List.range 512).map (fun j => formatBit a len (512 * i + j)) = slice (512 * i) (512 * i + 512) (padded a len) := by
  apply List.ext_getElem?
  intro j
  by_cases hj : j < 512
  · have hq : 512 * i + j < realEnd len := by unfold realEnd; omega
    rw [slice_getElem? _ (by omega), padded_getElem?_eq_paddedBit h hq]
    simp [hj, formatBit, hq]
  · rw [List.getElem?_eq_none (by simpa using hj), List.getElem?_eq_none (by rw [slice_length]; omega)]

/-- A filler block of the fixed shape is a zero block. -/
theorem fixedFormat_filler_block {a : Bits} {len i : Nat} (hi : tBlock len ≤ i) :
    (List.range 512).map (fun j => formatBit a len (512 * i + j)) = zeros 512 := by
  have hbit (j : Nat) : formatBit a len (512 * i + j) = false := if_neg (by unfold realEnd; omega)
  simp [hbit, zeros]

/-- `FORMAT`'s buffer, computed bit by bit, is the one cut from the padded sequence (45_composite.md R81). -/
theorem fixedFormatBlocks_eq_formatBlocks {c : Nat} {a : Bits} {len : Nat} (hc : tBlock len ≤ c) (h : len ≤ a.length) :
    fixedFormatBlocks c a len = formatBlocks c a len := by
  apply List.ext_getElem?
  intro i
  by_cases hi : i < c
  · rw [fixedFormatBlocks, List.getElem?_map, List.getElem?_range hi, Option.map_some]
    rcases Nat.lt_or_ge i (tBlock len) with ht | ht
    · rw [fixedFormat_real_block h ht, formatBlocks_real ht]
    · rw [fixedFormat_filler_block ht, formatBlocks_filler ht hi]
  · rw [List.getElem?_eq_none (by simpa [fixedFormatBlocks] using hi),
      List.getElem?_eq_none (by simpa [formatBlocks_length hc] using hi)]

/-- The multiplexer passes the bit of the chaining value that it selects (44_digest.md R77): its terms for the others are 0. -/
theorem muxBit_eq {hs : List Word256} {t q : Nat} (h1 : 1 ≤ t) (ht : t < hs.length) :
    muxBit hs t q = (digestBits (hs.getD t default)).getD q false := by
  rw [Bool.eq_iff_iff]
  simp only [muxBit, List.any_eq_true, List.mem_range, Bool.and_eq_true, decide_eq_true_eq]
  constructor
  · rintro ⟨i, -, ⟨-, rfl⟩, hb⟩
    exact hb
  · exact fun hb => ⟨t, ht, ⟨h1, rfl⟩, hb⟩

/-- The multiplexer's output is the digest of the chaining value that it selects. -/
theorem muxBits_eq {hs : List Word256} {t : Nat} (h1 : 1 ≤ t) (ht : t < hs.length) :
    muxBits hs t = digestBits (hs.getD t default) := by
  apply List.ext_getElem?
  intro q
  by_cases hq : q < 256
  · simp [muxBits, hq, muxBit_eq h1 ht]
  · rw [List.getElem?_eq_none (by simpa [muxBits] using hq), List.getElem?_eq_none (by simpa using hq)]

/-- The multiplexer over all chaining values of the blocks outputs `bits(H_t)`. -/
theorem muxBits_chainValues (p : Instance) {b : Blocks} {t : Nat} (h1 : 1 ≤ t) (ht : t ≤ b.length) :
    muxBits (chainValues (applyCompressor p.compress) p.iv b) t = digestBits (selectedValue p b t) := by
  have hlt : t < (chainValues (applyCompressor p.compress) p.iv b).length := by simp; omega
  rw [muxBits_eq h1 hlt, selectedValue, List.getD_eq_getElem _ _ hlt, List.getD_eq_getElem _ _ hlt]

/-- The fixed shape's digest bits are those of the real-block count over `FORMAT`'s blocks (45_composite.md R82). -/
theorem fixedHashBits_eq {p : Instance} {a : Bits} {len : Nat} (hc : tBlock len ≤ p.capacity) (h : len ≤ a.length) :
    fixedHashBits p a len = digestBits (selectedValue p (formatBlocks p.capacity a len) (tBlock len)) := by
  rw [fixedHashBits, fixedFormatBlocks_eq_formatBlocks hc h]
  exact muxBits_chainValues p (tBlock_pos len) (by rw [formatBlocks_length hc]; exact hc)

/-- On operands it accepts, `HASH` answers the digest selected over `FORMAT`'s blocks, and the real-block count. -/
theorem hashOutputs_of_accepted {p : Instance} {a : Bits} {len : Nat} (hl : len < 2 ^ 64) (hc : tBlock len ≤ p.capacity)
    (h : len ≤ a.length) : hashOutputs p a len =
      { Outputs.success with
        rDigest := some (digestBits (selectedValue p (formatBlocks p.capacity a len) (tBlock len)))
        rTblock := some (tBlock len) } := by
  rcases hashOutputs_cases p a len with ⟨h1, -⟩ | ⟨-, h2, -⟩ | ⟨-, -, h3, -⟩ | ⟨-, -, -, ho⟩
  · omega
  · omega
  · omega
  · exact ho

/-- Settles O39: the fixed-shape buffer is `FORMAT`'s, and the multiplexer over its chaining values selects `H_T`. -/
theorem hashIsFixedShapeDatapath : Obligations.HashIsFixedShapeDatapath := by
  intro s a len ha hn hl hc h
  have hexec : exec .hash s = .next (s.setOut (hashOutputs s.inst a len)) := exec_of_answers ⟨a, len, ha, hn, rfl⟩
  rw [hexec, hashOutputs_of_accepted hl hc h, fixedHashBits_eq hc h]
  rfl

end Sys2Proof.Machine
end

section
/-! SUPPORT. The statements of 10_state.md: what reset leaves, what every step keeps, when a copy faults, that a transaction
depends on no earlier one, and what the boundary admits. -/

namespace Sys2Proof.Machine

/-! ### The parameters and the frame of a transaction -/

/-- A transaction that goes on changed the output ports alone. -/
theorem transact_next_setOut {w : CmdWord} {s t : State} (h : transact w s = .next t) : ∃ o, t = s.setOut o := by
  rcases transact_next h with ⟨e, -, rfl⟩ | ⟨i, -, he⟩
  · exact ⟨_, rfl⟩
  · obtain ⟨o, rfl, -⟩ := exec_next he
    exact ⟨o, rfl⟩

/-- Settles O50: an operation that goes on is a `setOut`. -/
theorem execFrame : Obligations.ExecFrame := by
  intro i s t h
  obtain ⟨o, rfl, -⟩ := exec_next h
  exact ⟨rfl, rfl, rfl, rfl, rfl, rfl, rfl, rfl⟩

/-- Settles O8: waiting, reset, presenting and the transaction each keep the parameters. -/
theorem stepNeverChangesParameters : Obligations.StepNeverChangesParameters := by
  intro s t h
  rcases step_next h with ⟨-, rfl⟩ | ⟨rest, -, rfl⟩ | ⟨tr, rest, s', -, hp, ht⟩
  · rfl
  · rfl
  · obtain ⟨o, rfl⟩ := transact_next_setOut ht
    have hinst : s'.inst = s.inst := (present_ok hp).1
    exact hinst

/-! ### Reset -/

/-- Right after reset no output port holds a value (10_state.md R27). -/
theorem Outputs.noValue_holds (q : OutPort) : Outputs.noValue.holds q = false := by
  cases q with
  | result r => cases r <;> rfl
  | _ => rfl

/-- After reset the block gives no operand port a value (10_state.md R27). -/
theorem State.resetOf_drives (p : Instance) (q : InPort) : (State.resetOf p).drives q = false := by
  cases q <;> rfl

/-- A step that meets the reset input asserts it. -/
theorem step_of_reset {s : State} {rest : List HostEvent} (hh : s.host = .reset :: rest) :
    step s = .next (s.setHost rest).assertReset := by
  simp only [step, hh]

/-- Settles O7: the state after reset, port by port, and a step that meets the reset input. -/
theorem resetLeavesNoValue : Obligations.ResetLeavesNoValue :=
  ⟨fun p => ⟨rfl, rfl, rfl, State.resetOf_drives p⟩, Outputs.noValue_holds,
    fun _ _ hh => ⟨_, step_of_reset hh, rfl, rfl, rfl⟩⟩

/-! ### The invariant -/

/-- The outputs of an error that names an offending length (60_exceptions.md R87). -/
def Outputs.raised (o : Outputs) : Prop :=
  ∃ e len required available, e ≠ Status.ok ∧ o = raise e (some len) required available

theorem raiseAlignment_raised (len required : Nat) : (raiseAlignment len required).raised :=
  ⟨_, _, _, _, by decide, rfl⟩
theorem raiseCapacity_raised (len required available : Nat) : (raiseCapacity len required available).raised :=
  ⟨_, _, _, _, by decide, rfl⟩
theorem raiseOverflow_raised (len : Nat) : (raiseOverflow len).raised :=
  ⟨_, _, _, _, by decide, rfl⟩
theorem raisePrecondition_raised (len required available : Nat) : (raisePrecondition len required available).raised :=
  ⟨_, _, _, _, by decide, rfl⟩
theorem raiseReserved_raised (w : CmdWord) : (raiseReserved w).raised :=
  ⟨_, _, _, _, by decide, rfl⟩

/-- Outputs without a digest and without a real-block count meet the bounds of R84 for all parameters. -/
theorem Outputs.fitInstance_of_none {o : Outputs} (p : Instance) (hd : o.rDigest = none) (ht : o.rTblock = none) :
    o.fitInstance p := by
  simp [Outputs.fitInstance, hd, ht]

/-- A raised error is legal, and within the bounds for all parameters. -/
theorem Outputs.raised.legal_fit {o : Outputs} (h : o.raised) (p : Instance) : o.legal ∧ o.fitInstance p := by
  obtain ⟨e, len, required, available, he, rfl⟩ := h
  exact ⟨.inr (.inr ⟨e, he, rfl, raise_holdsResult e _ _ _, rfl⟩), Outputs.fitInstance_of_none p rfl rfl⟩

/-- A success is `OK`, no error context, and the result ports of the operation, compared port by port. -/
theorem Outputs.successOf_of_ports {i : Instr} {o : Outputs} (hs : o.status = some Status.ok.code)
    (hr : ResultPort.all.map o.holdsResult = ResultPort.all.map (writesPort i)) (hc : o.noContext) : o.successOf i :=
  ⟨hs, fun r => List.map_inj_left.mp hr r (by cases r <;> decide), hc⟩

/-- A success of an operation that writes neither a digest nor a real-block count is within the bounds for all parameters. -/
theorem Outputs.successOf.fitInstance {i : Instr} {o : Outputs} (h : o.successOf i) (p : Instance)
    (hd : writesPort i .rDigest = false) (ht : writesPort i .rTblock = false) : o.fitInstance p := by
  obtain ⟨-, hr, -⟩ := h
  exact Outputs.fitInstance_of_none p (by simpa [Outputs.holdsResult, hd] using hr .rDigest)
    (by simpa [Outputs.holdsResult, ht] using hr .rTblock)

/-- The results of `FORMAT` on operands it accepts are `C` blocks of 512 bits, zero from the real-block count on
(45_composite.md R84). -/
theorem formatResults_fitInstance {p : Instance} {a : Bits} {len : Nat} (hc : tBlock len ≤ p.capacity)
    (h : len ≤ a.length) :
    ({ Outputs.success with
      rBlocks := some (formatBlocks p.capacity a len), rTblock := some (tBlock len) } : Outputs).fitInstance p := by
  refine ⟨fun d hd => ?_, fun t ht => ?_, fun b t hb ht => ?_⟩
  · cases hd
  · cases ht
    exact ⟨tBlock_pos len, hc⟩
  · cases hb
    cases ht
    exact ⟨formatBlocks_length hc, formatBlocks_width h, fun i h1 h2 => formatBlocks_filler h1 h2⟩

/-- The results of `HASH` on operands it accepts are 256 bits of digest and a real-block count within the capacity. -/
theorem hashResults_fitInstance {p : Instance} (v : Word256) {len : Nat} (hc : tBlock len ≤ p.capacity) :
    ({ Outputs.success with
      rDigest := some (digestBits v), rTblock := some (tBlock len) } : Outputs).fitInstance p := by
  refine ⟨fun d hd => ?_, fun t ht => ?_, fun b t hb _ => ?_⟩
  · cases hd
    exact digestBits_length v
  · cases ht
    exact ⟨tBlock_pos len, hc⟩
  · cases hb

/-- A digest alone has 256 bits, whatever the parameters. -/
theorem digestResult_fitInstance (p : Instance) (v : Word256) :
    ({ Outputs.success with rDigest := some (digestBits v) } : Outputs).fitInstance p := by
  refine ⟨fun d hd => ?_, fun t ht => ?_, fun b t hb _ => ?_⟩
  · cases hd
    exact digestBits_length v
  · cases ht
  · cases hb

/-- A success of an operation that writes neither a digest nor a real-block count, with the bounds it then meets. -/
theorem Outputs.success_of_ports {i : Instr} {o : Outputs} (p : Instance) (hs : o.status = some Status.ok.code)
    (hr : ResultPort.all.map o.holdsResult = ResultPort.all.map (writesPort i)) (hc : o.noContext)
    (hd : writesPort i .rDigest = false) (ht : writesPort i .rTblock = false) : o.successOf i ∧ o.fitInstance p :=
  have h : o.successOf i := Outputs.successOf_of_ports hs hr hc
  ⟨h, h.fitInstance p hd ht⟩

/-- An operation ends in a raised error, or in its success within the bounds of R84. -/
theorem answers_raised_or_success {i : Instr} {s : State} {o : Outputs} (h : answers i s o) :
    o.raised ∨ (o.successOf i ∧ o.fitInstance s.inst) := by
  cases i with
  | bytesToBits =>
    obtain ⟨b, -, rfl⟩ := h
    exact .inr (Outputs.success_of_ports s.inst rfl rfl ⟨rfl, rfl, rfl⟩ rfl rfl)
  | bitsToBytes =>
    obtain ⟨a, -, rfl⟩ := h
    rcases bitsToBytesOutputs_cases a with ⟨-, h⟩ | ⟨-, h⟩ <;> rw [h]
    · exact .inl (raiseAlignment_raised _ _)
    · exact .inr (Outputs.success_of_ports s.inst rfl rfl ⟨rfl, rfl, rfl⟩ rfl rfl)
  | pad =>
    obtain ⟨a, len, -, -, rfl⟩ := h
    rcases padOutputs_cases a len with ⟨-, h⟩ | ⟨-, -, h⟩ | ⟨-, -, h⟩ <;> rw [h]
    · exact .inl (raiseOverflow_raised _)
    · exact .inl (raisePrecondition_raised _ _ _)
    · exact .inr (Outputs.success_of_ports s.inst rfl rfl ⟨rfl, rfl, rfl⟩ rfl rfl)
  | segment =>
    obtain ⟨a, w, -, -, rfl⟩ := h
    rcases segmentOutputs_cases a w with ⟨-, h⟩ | ⟨-, -, h⟩ | ⟨-, -, h⟩ <;> rw [h]
    · exact .inl (raisePrecondition_raised _ _ _)
    · exact .inl (raiseAlignment_raised _ _)
    · exact .inr (Outputs.success_of_ports s.inst rfl rfl ⟨rfl, rfl, rfl⟩ rfl rfl)
  | fit =>
    obtain ⟨b, w, -, -, rfl⟩ := h
    rcases fitOutputs_cases s.inst.capacity b w with ⟨-, h⟩ | ⟨-, _, _, -, -, -, h⟩ | ⟨-, -, -, h⟩ | ⟨-, -, -, h⟩ <;> rw [h]
    · exact .inl (raisePrecondition_raised _ _ _)
    · exact .inl (raisePrecondition_raised _ _ _)
    · exact .inl (raiseCapacity_raised _ _ _)
    · exact .inr (Outputs.success_of_ports s.inst rfl rfl ⟨rfl, rfl, rfl⟩ rfl rfl)
  | tblock =>
    obtain ⟨len, -, rfl⟩ := h
    exact .inr (Outputs.success_of_ports s.inst rfl rfl ⟨rfl, rfl, rfl⟩ rfl rfl)
  | capacity =>
    obtain ⟨bs, -, rfl⟩ := h
    exact .inr (Outputs.success_of_ports s.inst rfl rfl ⟨rfl, rfl, rfl⟩ rfl rfl)
  | maxlen =>
    obtain ⟨k, -, rfl⟩ := h
    rcases maxlenOutputs_cases k with ⟨-, h⟩ | ⟨-, h⟩ <;> rw [h]
    · exact .inl (raisePrecondition_raised _ _ _)
    · exact .inr (Outputs.success_of_ports s.inst rfl rfl ⟨rfl, rfl, rfl⟩ rfl rfl)
  | digest =>
    obtain ⟨b, t, -, -, rfl⟩ := h
    rcases digestOutputs_cases s.inst b t with ⟨_, _, -, -, -, h⟩ | ⟨-, -, h⟩ | ⟨-, -, -, h⟩ <;> rw [h]
    · exact .inl (raisePrecondition_raised _ _ _)
    · exact .inl (raisePrecondition_raised _ _ _)
    · exact .inr ⟨Outputs.successOf_of_ports rfl rfl ⟨rfl, rfl, rfl⟩, digestResult_fitInstance s.inst _⟩
  | format =>
    obtain ⟨a, len, -, -, rfl⟩ := h
    rcases formatOutputs_cases s.inst.capacity a len with ⟨-, h⟩ | ⟨-, -, h⟩ | ⟨-, -, -, h⟩ | ⟨-, hc, hl, h⟩ <;> rw [h]
    · exact .inl (raiseOverflow_raised _)
    · exact .inl (raiseCapacity_raised _ _ _)
    · exact .inl (raisePrecondition_raised _ _ _)
    · exact .inr ⟨Outputs.successOf_of_ports rfl rfl ⟨rfl, rfl, rfl⟩, formatResults_fitInstance hc hl⟩
  | hash =>
    obtain ⟨a, len, -, -, rfl⟩ := h
    rcases hashOutputs_cases s.inst a len with ⟨-, h⟩ | ⟨-, -, h⟩ | ⟨-, -, -, h⟩ | ⟨-, hc, -, h⟩ <;> rw [h]
    · exact .inl (raiseOverflow_raised _)
    · exact .inl (raiseCapacity_raised _ _ _)
    · exact .inl (raisePrecondition_raised _ _ _)
    · exact .inr ⟨Outputs.successOf_of_ports rfl rfl ⟨rfl, rfl, rfl⟩, hashResults_fitInstance _ hc⟩

/-- A state whose output ports hold no value meets the invariant. -/
theorem State.Inv_of_noValue {s : State} (h : s.out = Outputs.noValue) : s.Inv := by
  unfold State.Inv
  rw [h]
  exact ⟨.inl rfl, Outputs.fitInstance_of_none s.inst rfl rfl⟩

/-- A transaction that goes on establishes the invariant, whatever the output ports held before (10_state.md R25). -/
theorem transact_next_Inv {w : CmdWord} {s t : State} (h : transact w s = .next t) : t.Inv := by
  rcases transact_next h with ⟨e, -, rfl⟩ | ⟨i, -, he⟩
  · exact (raiseReserved_raised w).legal_fit s.inst
  · obtain ⟨o, rfl, ho⟩ := exec_next he
    rcases answers_raised_or_success ho with hr | ⟨hs, hf⟩
    · exact hr.legal_fit s.inst
    · exact ⟨.inr (.inl ⟨i, hs⟩), hf⟩

/-- Settles O54: waiting keeps the state, reset leaves no value, and every transaction establishes the invariant. -/
theorem stepKeepsInvariant : Obligations.StepKeepsInvariant := by
  intro s t hs h
  rcases step_next h with ⟨-, rfl⟩ | ⟨rest, -, rfl⟩ | ⟨tr, rest, s', -, -, ht⟩
  · exact hs
  · exact State.Inv_of_noValue rfl
  · exact transact_next_Inv ht

/-- Settles O55: after reset no output port holds a value. -/
theorem resetHasInvariant : Obligations.ResetHasInvariant :=
  ⟨fun _ => State.Inv_of_noValue rfl, State.Inv_of_noValue rfl⟩

/-! ### Copies of absent results -/

/-- `A_BITS` faults on presenting exactly when it copies a port that holds no value. -/
theorem driven_bits_error_iff {o : Outputs} {a : Option BitsArg} : (∃ e, driven (BitsArg.resolve o) a = .error e) ↔
    (a = some .rBits ∧ o.rBits = none) ∨ (a = some .rDigest ∧ o.rDigest = none) := by
  rcases a with _ | (_ | _ | _) <;> simp [driven_error, BitsArg.resolve]

/-- As `driven_bits_error_iff`, for `A_BYTES`. -/
theorem driven_bytes_error_iff {o : Outputs} {a : Option BytesArg} :
    (∃ e, driven (BytesArg.resolve o) a = .error e) ↔ a = some .rBytes ∧ o.rBytes = none := by
  rcases a with _ | (_ | _) <;> simp [driven_error, BytesArg.resolve]

/-- As `driven_bits_error_iff`, for `A_BLOCKS`. -/
theorem driven_blocks_error_iff {o : Outputs} {a : Option BlocksArg} :
    (∃ e, driven (BlocksArg.resolve o) a = .error e) ↔ a = some .rBlocks ∧ o.rBlocks = none := by
  rcases a with _ | (_ | _) <;> simp [driven_error, BlocksArg.resolve]

/-- As `driven_bits_error_iff`, for `N` and `M`. -/
theorem driven_num_error_iff {o : Outputs} {a : Option NumArg} : (∃ e, driven (NumArg.resolve o) a = .error e) ↔
    (a = some .rNum ∧ o.rNum = none) ∨ (a = some .rTblock ∧ o.rTblock = none) := by
  rcases a with _ | (_ | _ | _) <;> simp [driven_error, NumArg.resolve]

/-- A step that presents a transaction faults on a result port exactly when presenting does: an operation faults on operand
ports only. -/
theorem step_resultAbsent_iff {s : State} {t : Transaction} {rest : List HostEvent} (hh : s.host = .run t :: rest)
    (r : ResultPort) : step s = .fault (.resultAbsent r) ↔ present t (s.setHost rest) = .error (.resultAbsent r) := by
  cases hp : present t (s.setHost rest) with
  | error e => simp [step, hh, runTransaction, hp]
  | ok s' =>
    rw [step_of_present_ok hh hp]
    refine iff_of_false (fun h => ?_) (by simp)
    obtain ⟨i, p, hf, -⟩ := transact_fault h
    cases hf

/-- Settles O6: the exact condition is that of the five ports, one by one. -/
theorem copyOfAbsentResultFaults : Obligations.CopyOfAbsentResultFaults := by
  intro s t rest hh
  have hfault : (∃ r, step s = .fault (.resultAbsent r)) ↔ ∃ e, present t (s.setHost rest) = .error e := by
    simp only [step_resultAbsent_iff hh]
    refine ⟨fun ⟨r, h⟩ => ⟨_, h⟩, fun ⟨e, h⟩ => ?_⟩
    obtain ⟨r, rfl, -⟩ := present_fault_copies h
    exact ⟨r, h⟩
  refine ⟨?_, fun r h => ?_⟩
  · rw [hfault, present_error, driven_bits_error_iff, driven_bytes_error_iff, driven_blocks_error_iff,
      driven_num_error_iff, driven_num_error_iff]
    simp only [State.setHost_out, or_assoc]
  · obtain ⟨r', hr, hc⟩ := present_fault_copies ((step_resultAbsent_iff hh r).mp h)
    cases hr
    exact hc

/-! ### A transaction depends on no earlier one -/

/-- The answer with other things for the host to do afterwards. -/
def resultWithHost (h : List HostEvent) : Result → Result
  | .next u => .next (u.setHost h)
  | .fault f => .fault f
  | .refused r => .refused r

section resultWithHost
variable (h : List HostEvent) (s : State)

theorem resultWithHost_withBits (k : Bits → Result) :
    resultWithHost h (withBits s k) = withBits (s.setHost h) fun a => resultWithHost h (k a) := by
  simp only [withBits, State.setHost_aBits]
  cases s.aBits <;> rfl

theorem resultWithHost_withBytes (k : Bytes → Result) :
    resultWithHost h (withBytes s k) = withBytes (s.setHost h) fun a => resultWithHost h (k a) := by
  simp only [withBytes, State.setHost_aBytes]
  cases s.aBytes <;> rfl

theorem resultWithHost_withBlocks (k : Blocks → Result) :
    resultWithHost h (withBlocks s k) = withBlocks (s.setHost h) fun a => resultWithHost h (k a) := by
  simp only [withBlocks, State.setHost_aBlocks]
  cases s.aBlocks <;> rfl

theorem resultWithHost_withN (k : Nat → Result) :
    resultWithHost h (withN s k) = withN (s.setHost h) fun v => resultWithHost h (k v) := by
  simp only [withN, State.setHost_n]
  cases s.n <;> rfl

theorem resultWithHost_withM (k : Nat → Result) :
    resultWithHost h (withM s k) = withM (s.setHost h) fun v => resultWithHost h (k v) := by
  simp only [withM, State.setHost_m]
  cases s.m <;> rfl

theorem resultWithHost_finish (o : Outputs) : resultWithHost h (s.finish o) = (s.setHost h).finish o := rfl

theorem resultWithHost_admitOutputs : resultWithHost h (admitOutputs s) = admitOutputs (s.setHost h) := by
  by_cases hf : outputsFit s.inst s.out = true <;> simp [admitOutputs, resultWithHost, hf]

/-- An operation carries the host's list along. -/
theorem exec_setHost (i : Instr) : exec i (s.setHost h) = resultWithHost h (exec i s) := by
  cases i <;> simp only [exec, execBytesToBits, execBitsToBytes, execPad, execSegment, execFit, execTblock, execCapacity,
    execMaxlen, execDigest, execFormat, execHash, resultWithHost_withBits, resultWithHost_withBytes,
    resultWithHost_withBlocks, resultWithHost_withN, resultWithHost_withM, resultWithHost_finish, State.setHost_inst]

theorem wideOperand_setHost (i : Instr) : wideOperand i (s.setHost h) = wideOperand i s := by
  have hfits (p : InPort) : (s.setHost h).operandFits p = s.operandFits p := by cases p <;> rfl
  simp only [wideOperand, hfits]

/-- So does a transaction. -/
theorem transact_setHost (w : CmdWord) : transact w (s.setHost h) = resultWithHost h (transact w s) := by
  cases hd : decode w with
  | error e =>
    simp only [transact, hd, resultWithHost_admitOutputs]
    rfl
  | ok i =>
    rw [transact_of_decode_ok hd, transact_of_decode_ok hd, execChecked, execChecked, wideOperand_setHost, exec_setHost]
    cases wideOperand i s with
    | some p => rfl
    | none =>
      cases exec i s with
      | next t => exact (resultWithHost_admitOutputs h t).symm
      | fault f => rfl
      | refused r => rfl

end resultWithHost

/-- An operation does not look at what the output ports hold (10_state.md R25). -/
theorem exec_setOut (i : Instr) (s : State) (o : Outputs) : exec i (s.setOut o) = exec i s := by
  cases i <;> rfl

theorem wideOperand_setOut (i : Instr) (s : State) (o : Outputs) : wideOperand i (s.setOut o) = wideOperand i s := by
  have hfits (p : InPort) : (s.setOut o).operandFits p = s.operandFits p := by cases p <;> rfl
  simp only [wideOperand, hfits]

/-- Nor does a transaction (10_state.md R19). -/
theorem transact_setOut (w : CmdWord) (s : State) (o : Outputs) : transact w (s.setOut o) = transact w s := by
  simp only [transact, execChecked, wideOperand_setOut, exec_setOut, State.setOut_setOut]

/-! A port that is not driven with a copy does not depend on the results before. -/

theorem driven_bits_of_no_copy {a : Option BitsArg} (h : a ≠ some .rBits) (h' : a ≠ some .rDigest) (o o' : Outputs) :
    driven (BitsArg.resolve o) a = driven (BitsArg.resolve o') a := by
  rcases a with _ | (_ | _ | _)
  · rfl
  · rfl
  · exact absurd rfl h
  · exact absurd rfl h'

theorem driven_bytes_of_no_copy {a : Option BytesArg} (h : a ≠ some .rBytes) (o o' : Outputs) :
    driven (BytesArg.resolve o) a = driven (BytesArg.resolve o') a := by
  rcases a with _ | (_ | _)
  · rfl
  · rfl
  · exact absurd rfl h

theorem driven_blocks_of_no_copy {a : Option BlocksArg} (h : a ≠ some .rBlocks) (o o' : Outputs) :
    driven (BlocksArg.resolve o) a = driven (BlocksArg.resolve o') a := by
  rcases a with _ | (_ | _)
  · rfl
  · rfl
  · exact absurd rfl h

theorem driven_num_of_no_copy {a : Option NumArg} (h : a ≠ some .rNum) (h' : a ≠ some .rTblock) (o o' : Outputs) :
    driven (NumArg.resolve o) a = driven (NumArg.resolve o') a := by
  rcases a with _ | (_ | _ | _)
  · rfl
  · rfl
  · exact absurd rfl h
  · exact absurd rfl h'

/-- Presenting a transaction without copies goes on. -/
theorem present_ok_of_selfContained {t : Transaction} (ht : t.selfContained) (s : State) : ∃ p, present t s = .ok p := by
  cases hp : present t s with
  | ok p => exact ⟨p, rfl⟩
  | error f =>
    obtain ⟨r, -, hc, -⟩ := present_fault_copies hp
    exact absurd hc (selfContained_iff.mp ht r)

/-- Presenting a transaction without copies drives the input ports in the same way whatever came before. -/
theorem present_eq_of_selfContained {t : Transaction} (ht : t.selfContained) {s s' p p' : State} (hi : s'.inst = s.inst)
    (hp : present t s = .ok p) (hp' : present t s' = .ok p') : p' = (p.setOut s'.out).setHost s'.host := by
  obtain ⟨hbits, hdigest, hbytes, hblocks, hnNum, hnTblock, hmNum, hmTblock⟩ := ht
  obtain ⟨pi, -, -, pc, pa, pb, pk, pn, pm⟩ := present_ok hp
  obtain ⟨pi', po', ph', pc', pa', pb', pk', pn', pm'⟩ := present_ok hp'
  rw [driven_bits_of_no_copy hbits hdigest s'.out s.out, pa] at pa'
  rw [driven_bytes_of_no_copy hbytes s'.out s.out, pb] at pb'
  rw [driven_blocks_of_no_copy hblocks s'.out s.out, pk] at pk'
  rw [driven_num_of_no_copy hnNum hnTblock s'.out s.out, pn] at pn'
  rw [driven_num_of_no_copy hmNum hmTblock s'.out s.out, pm] at pm'
  have hinst : p'.inst = p.inst := by rw [pi', hi, pi]
  have hcmd : p'.cmd = p.cmd := by rw [pc', pc]
  simp only [Except.ok.injEq] at pa' pb' pk' pn' pm'
  calc p' = ⟨p'.inst, p'.cmd, p'.aBits, p'.aBytes, p'.aBlocks, p'.n, p'.m, p'.out, p'.host⟩ := rfl
    _ = ⟨p.inst, p.cmd, p.aBits, p.aBytes, p.aBlocks, p.n, p.m, s'.out, s'.host⟩ := by
      rw [hinst, hcmd, ← pa', ← pb', ← pk', ← pn', ← pm', po', ph']

/-- From states with the same parameters a transaction without copies gives the same answer, but for what the host does
afterwards. -/
theorem step_eq_of_selfContained {t : Transaction} (ht : t.selfContained) {s s' : State} {rest rest' : List HostEvent}
    (hi : s'.inst = s.inst) (hh : s.host = .run t :: rest) (hh' : s'.host = .run t :: rest') :
    step s' = resultWithHost rest' (step s) := by
  obtain ⟨p, hp⟩ := present_ok_of_selfContained ht (s.setHost rest)
  obtain ⟨p', hp'⟩ := present_ok_of_selfContained ht (s'.setHost rest')
  have hpp : p' = (p.setOut s'.out).setHost rest' :=
    present_eq_of_selfContained ht (s := s.setHost rest) (s' := s'.setHost rest') hi hp hp'
  calc step s' = transact t.cmd ((p.setOut s'.out).setHost rest') := by rw [step_of_present_ok hh' hp', hpp]
    _ = resultWithHost rest' (transact t.cmd p) := by rw [transact_setHost, transact_setOut]
    _ = resultWithHost rest' (step s) := by rw [step_of_present_ok hh hp]

/-- A step that presents a transaction and goes on keeps the parameters and leaves the rest of the host's list. -/
theorem step_run_next {s u : State} {t : Transaction} {rest : List HostEvent} (hh : s.host = .run t :: rest)
    (h : step s = .next u) : u.inst = s.inst ∧ u.host = rest := by
  refine ⟨stepNeverChangesParameters s u h, ?_⟩
  cases hp : present t (s.setHost rest) with
  | error e => simp [step, hh, runTransaction, hp] at h
  | ok p =>
    rw [step_of_present_ok hh hp] at h
    obtain ⟨o, rfl⟩ := transact_next_setOut h
    obtain ⟨-, -, hhost, -⟩ := present_ok hp
    exact hhost

/-- Settles O53: the second answer is the first with another list for the host, which changes no output port, fault or
refusal; repeating the transaction is the case of a second state which the first step leads to. -/
theorem outcomeIndependentOfEarlierTransactions : Obligations.OutcomeIndependentOfEarlierTransactions := by
  intro s s' t rest rest' ht hi hh hh'
  have hstep : step s' = resultWithHost rest' (step s) := step_eq_of_selfContained ht hi hh hh'
  refine ⟨fun u h => ?_, fun f h => ?_, fun r h => ?_, fun u rest'' h hr => ?_⟩
  · exact ⟨u.setHost rest', by rw [hstep, h]; rfl, rfl⟩
  · rw [hstep, h]; rfl
  · rw [hstep, h]; rfl
  · obtain ⟨hui, huh⟩ := step_run_next hh h
    have hagain : step u = resultWithHost rest'' (step s) := step_eq_of_selfContained ht hui hh (huh.trans hr)
    exact ⟨u.setHost rest'', by rw [hagain, h]; rfl, rfl⟩

/-! ### The boundary -/

/-- The range of every slot, spelled out: the four checks of the boundary (10_state.md R23). -/
theorem RawTransaction.wf_iff (t : RawTransaction) : t.wf = true ↔ t.cmd < 2 ^ 16 ∧
    (t.aBits.getD []).all bitSlot = true ∧ (t.aBytes.getD []).all byteSlot = true ∧
    ((t.aBlocks.getD []).all fun b => b.all bitSlot) = true := by
  simp only [RawTransaction.wf, Bool.and_eq_true, decide_eq_true_eq, and_assoc]

/-- The boundary admits a transaction exactly when none of its checks fails. -/
theorem admitRaw_ok_iff_wf (t : RawTransaction) : (∃ u, admitRaw t = .ok u) ↔ t.wf = true := by
  rw [RawTransaction.wf_iff]
  unfold admitRaw
  split
  · next hc => exact iff_of_false (by simp) fun h => hc h.1
  · next hc =>
    split
    · next ha => exact iff_of_false (by simp) fun h => ha h.2.1
    · next ha =>
      split
      · next hb => exact iff_of_false (by simp) fun h => hb h.2.2.1
      · next hb =>
        split
        · next hk => exact iff_of_false (by simp) fun h => hk h.2.2.2
        · next hk => exact iff_of_true ⟨_, rfl⟩ ⟨not_not.mp hc, not_not.mp ha, not_not.mp hb, not_not.mp hk⟩

/-- A bad slot of `A_BITS` is refused by name, whatever the other sequences hold. -/
theorem admitRaw_slotNotBinary {t : RawTransaction} (hc : t.cmd < 2 ^ 16) (ha : (t.aBits.getD []).all bitSlot = false) :
    admitRaw t = .error (.slotNotBinary .aBits) := by
  unfold admitRaw
  rw [if_neg (not_not.mpr hc), if_pos (by rw [ha]; decide)]

/-- The bits admitted are those of the slots. -/
theorem admitRaw_aBits {t : RawTransaction} {u : Transaction} (h : admitRaw t = .ok u) :
    u.aBits = t.aBits.map fun a => .value (a.map slotBit) := by
  unfold admitRaw at h
  split_ifs at h
  cases h
  rfl

/-- A slot above 1 is no bit slot. -/
theorem all_bitSlot_eq_false {a : List Nat} {v : Nat} (hv : v ∈ a) (h : 1 < v) : a.all bitSlot = false :=
  List.all_eq_false.mpr ⟨v, hv, by simpa [bitSlot] using h⟩

theorem slotBit_eq_decide : slotBit = fun v => decide (v = 1) :=
  funext fun v => beq_eq_decide v 1

/-- Settles O60: the exact condition, the refusal of a bad slot of `A_BITS`, and the bits admitted. -/
theorem boundaryAdmitsExactlyRangedSlots : Obligations.BoundaryAdmitsExactlyRangedSlots := by
  refine fun t => ⟨admitRaw_ok_iff_wf t, fun a v hc ha hv h1 => ?_, fun u a h ha => ?_⟩
  · exact admitRaw_slotNotBinary hc (by rw [ha]; exact all_bitSlot_eq_false hv h1)
  · rw [admitRaw_aBits h, ha, slotBit_eq_decide]
    rfl

end Sys2Proof.Machine
end

section
/-! SUPPORT. The statements of 20_memory.md: `SEGMENT` keeps the order of the bits, and the digest's bits are its words in
order, each most significant bit first. -/

namespace Sys2Proof.Machine

/-! ### Chunks -/

/-- Bit `j` of chunk `i` is bit `w*i + j` of the sequence (20_memory.md R33). -/
theorem chunks_bit {w n i j : Nat} {s x : Bits} (hx : (chunks w n s)[i]? = some x) (hj : j < w) :
    x[j]? = s[w * i + j]? := by
  obtain ⟨hi, -⟩ := List.getElem?_eq_some_iff.mp hx
  rw [chunks_length] at hi
  rw [chunks_getElem? s hi, Option.some.injEq] at hx
  rw [← hx, slice_getElem? s (by omega)]

/-- `SEGMENT` on operands that it accepts (42_segment_fit.md R65). -/
theorem segmentOutputs_of_accepted {a : Bits} {w : Nat} (hw : 1 ≤ w) (ha : a.length % w = 0) :
    segmentOutputs a w = { Outputs.success with rBlocks := some (chunks w (a.length / w) a) } := by
  rcases segmentOutputs_cases a w with ⟨h, -⟩ | ⟨-, h, -⟩ | ⟨-, -, h⟩
  · omega
  · exact absurd ha h
  · exact h

/-- Settles O19: the blocks are the chunks of a sequence which they fill exactly. -/
theorem segmentPreservesOrder : Obligations.SegmentPreservesOrder := by
  intro s a w hs hm hw ha
  have hfill : w * (a.length / w) = a.length := Nat.mul_div_cancel' (Nat.dvd_of_mod_eq_zero ha)
  refine ⟨chunks w (a.length / w) a,
    exec_of_answers ⟨a, w, hs, hm, (segmentOutputs_of_accepted hw ha).symm⟩, ?_, fun i j x hx => ⟨?_, chunks_bit hx⟩⟩
  · rw [chunks_flatten w _ a hfill.le, hfill, List.take_length]
  · exact chunks_width hfill.le x (List.mem_of_getElem? hx)

/-! ### Big-endian bits -/

/-- The upper bits are those of the quotient. -/
theorem be_add (m n v : Nat) : be (m + n) v = be m (v / 2 ^ n) ++ be n v := by
  have hupper : ∀ i ∈ List.range m, bitOf (m + n - 1 - i) v = bitOf (m - 1 - i) (v / 2 ^ n) := fun i hi => by
    have hi := List.mem_range.mp hi
    rw [bitOf_eq_testBit, bitOf_eq_testBit, Nat.testBit_div_two_pow, show m + n - 1 - i = m - 1 - i + n by omega]
  have hlower : ∀ i ∈ List.range n, bitOf (m + n - 1 - (m + i)) v = bitOf (n - 1 - i) v := fun i _ => by
    rw [show m + n - 1 - (m + i) = n - 1 - i by omega]
  simp only [be, List.range_add, List.map_append, List.map_map]
  exact congrArg₂ _ (List.map_congr_left hupper) (List.map_congr_left hlower)

/-- Bits above the width do not show. -/
theorem be_mod (w v : Nat) : be w (v % 2 ^ w) = be w v := by
  have h := be_natOfBits (be w v)
  rwa [be_length, natOfBits_be] at h

theorem byteBits_ofNat (v : Nat) : byteBits (BitVec.ofNat 8 v) = be 8 v := by
  rw [byteBits_eq_be, BitVec.toNat_ofNat, be_mod]

/-! ### Bytes to bits and back -/

/-- Eight bits from `8*k` on are byte `k`. -/
theorem slice_bytesToBits {b : Bytes} {k : Nat} {x : Byte} (hx : b[k]? = some x) :
    slice (8 * k) (8 * k + 8) (bytesToBits b) = byteBits x := by
  have hk : k < b.length := (List.getElem?_eq_some_iff.mp hx).1
  refine List.ext_getElem? fun j => ?_
  by_cases hj : j < 8
  · rw [slice_getElem? _ (by omega), bytesToBits, flatMap_getElem? byteBits 8 byteBits_length b k j x hx hj]
  · rw [List.getElem?_eq_none, List.getElem?_eq_none]
    · rw [byteBits_length]; omega
    · rw [slice_length]; omega

/-- Cutting the bits of a byte sequence gives the bytes back (40_serializer.md R58). -/
theorem bitsToBytes_bytesToBits (b : Bytes) : bitsToBytes (bytesToBits b) = b := by
  have hlen : (bytesToBits b).length / 8 = b.length := by rw [bytesToBits_length]; omega
  refine List.ext_getElem? fun k => ?_
  by_cases hk : k < b.length
  · have hx : b[k]? = some b[k] := List.getElem?_eq_getElem hk
    have hbyte : BitVec.ofNat 8 (natOfBits (byteBits b[k])) = b[k] := by
      rw [byteBits_eq_be, natOfBits_be, Nat.mod_eq_of_lt b[k].isLt, BitVec.ofNat_toNat, BitVec.setWidth_eq]
    rw [bitsToBytes_getElem? (by omega), slice_bytesToBits hx, hbyte, hx]
  · rw [List.getElem?_eq_none (by rw [bitsToBytes_length]; omega), List.getElem?_eq_none (by omega)]

/-- `BITS_TO_BYTES` completes on the bits of a byte sequence, with those bytes. -/
theorem bitsToBytesOutputs_bytesToBits (b : Bytes) :
    bitsToBytesOutputs (bytesToBits b) = { Outputs.success with rBytes := some b } := by
  rcases bitsToBytesOutputs_cases (bytesToBits b) with ⟨h, -⟩ | ⟨-, h⟩
  · rw [bytesToBits_length] at h; omega
  · rw [h, bitsToBytes_bytesToBits]

/-! ### The digest -/

/-- A word's bytes are its value shifted down by 24, 16, 8 and 0 bits: a byte keeps the low eight bits anyway. -/
theorem wordBytes_eq (w : Word) : wordBytes w =
    [BitVec.ofNat 8 (w.toNat / 2 ^ 24), BitVec.ofNat 8 (w.toNat / 2 ^ 16), BitVec.ofNat 8 (w.toNat / 2 ^ 8),
      BitVec.ofNat 8 w.toNat] := by
  have hfield (lo : Nat) : BitVec.ofNat 8 (natField (lo + 7) lo w.toNat) = BitVec.ofNat 8 (w.toNat / 2 ^ lo) := by
    apply BitVec.eq_of_toNat_eq
    simp only [natField, BitVec.toNat_ofNat, show lo + 7 - lo + 1 = 8 by omega, Nat.mod_mod]
  simp only [wordBytes, hfield 24, hfield 16, hfield 8, hfield 0, pow_zero, Nat.div_one]

/-- The bits of a word are those of its bytes. -/
theorem be_word_eq_bytesToBits (w : Word) : be 32 w.toNat = bytesToBits (wordBytes w) := by
  calc be 32 w.toNat
      = be 8 (w.toNat / 2 ^ 24) ++ (be 8 (w.toNat / 2 ^ 16) ++ (be 8 (w.toNat / 2 ^ 8) ++ be 8 w.toNat)) := by
        rw [be_add 8 24, be_add 8 16, be_add 8 8]
    _ = bytesToBits (wordBytes w) := by
        simp only [wordBytes_eq, bytesToBits, List.flatMap_cons, List.flatMap_nil, List.append_nil, byteBits_ofNat]

/-- The digest's bits are those of its words' bytes (20_memory.md R35 with R31). -/
theorem digestBits_eq_bytesToBits (h : Word256) : digestBits h = bytesToBits (h.words.flatMap wordBytes) := by
  rw [digestBits, funext be_word_eq_bytesToBits]
  exact List.flatMap_assoc.symm

/-- Bit `32*a + c` of the digest is bit `31 - c` of word `a` (20_memory.md R35). -/
theorem digestBits_getElem? {h : Word256} {a c : Nat} {w : Word} (hw : h.words[a]? = some w) (hc : c < 32) :
    (digestBits h)[32 * a + c]? = some (w.toNat.testBit (31 - c)) := by
  rw [digestBits, flatMap_getElem? _ 32 (fun w => be_length 32 w.toNat) h.words a c w hw hc, be_getElem? hc,
    bitOf_eq_testBit]

/-- Settles O30: the words are laid out bit by bit, and the same bits are those of the words' bytes. -/
theorem digestBitOrder : Obligations.DigestBitOrder := by
  refine fun h => ⟨digestBits_length h, fun a c w => digestBits_getElem?, fun s hs => ?_⟩
  have hbytes := bitsToBytesOutputs_bytesToBits (h.words.flatMap wordBytes)
  rw [← digestBits_eq_bytesToBits, funext wordBytes_eq] at hbytes
  exact exec_of_answers ⟨_, hs, hbytes.symm⟩

end Sys2Proof.Machine
end

section
/-! SUPPORT. The statements of 30_encoding.md: the command words, what a reserved one does, the ports an operation does not
read, the two pseudo-operations, and which texts the assembler accepts. -/

namespace Sys2Proof.Machine

/-! ### The command word -/

/-- A command word is its two fields (30_encoding.md R43). -/
theorem fieldRsv_append_fieldOp (w : CmdWord) : fieldRsv w ++ fieldOp w = w := by
  apply BitVec.eq_of_toNat_eq
  have hw := w.isLt
  simp only [fieldRsv, fieldOp, BitVec.toNat_append, BitVec.extractLsb'_toNat, Nat.shiftRight_eq_div_pow]
  rw [← Nat.shiftLeft_add_eq_or_of_lt (Nat.mod_lt _ (by decide)), Nat.shiftLeft_eq]
  omega

@[simp] theorem fieldOp_encode (i : Instr) : fieldOp (encode i) = opcode i := by
  cases i <;> decide

@[simp] theorem fieldRsv_encode (i : Instr) : fieldRsv (encode i) = 0#12 := by
  cases i <;> decide

theorem fieldOp_toNat (w : CmdWord) : (fieldOp w).toNat = w.toNat % 16 := by
  simp [fieldOp, BitVec.extractLsb'_toNat]

/-- No reserved bit is set exactly in the words below 16. -/
theorem fieldRsv_eq_zero_iff (w : CmdWord) : fieldRsv w = 0#12 ↔ w.toNat < 16 := by
  have hw := w.isLt
  rw [← BitVec.toNat_inj]
  simp only [fieldRsv, BitVec.extractLsb'_toNat, BitVec.toNat_ofNat, Nat.shiftRight_eq_div_pow]
  omega

theorem decodeOp_opcode (i : Instr) : decodeOp (opcode i) = .ok i := by
  cases i <;> rfl

/-- No two codes are one operation: the sixteen rows of the operation map (R45). -/
theorem decodeOp_eq_ok_iff (op : BitVec 4) (i : Instr) : decodeOp op = .ok i ↔ op = opcode i := by
  refine ⟨fun h => ?_, fun h => h ▸ decodeOp_opcode i⟩
  revert op
  cases i <;> decide

theorem decodeOp_eq_reservedCode_iff : ∀ op : BitVec 4,
    decodeOp op = .error .reservedCode ↔ op.toNat = 0 ∨ 12 ≤ op.toNat := by
  decide

theorem decodeOp_ne_reservedBits : ∀ op : BitVec 4, decodeOp op ≠ .error .reservedBits := by
  decide

theorem decode_of_fieldRsv_ne {w : CmdWord} (h : fieldRsv w ≠ 0#12) : decode w = .error .reservedBits := if_pos h

theorem decode_of_fieldRsv_eq {w : CmdWord} (h : fieldRsv w = 0#12) : decode w = decodeOp (fieldOp w) :=
  if_neg (not_not.mpr h)

@[simp] theorem decode_encode (i : Instr) : decode (encode i) = .ok i := by
  rw [decode_of_fieldRsv_eq (fieldRsv_encode i), fieldOp_encode, decodeOp_opcode]

/-- Each operation has one word (R44). -/
theorem decode_eq_ok_iff (w : CmdWord) (i : Instr) : decode w = .ok i ↔ w = encode i := by
  refine ⟨fun h => ?_, fun h => h ▸ decode_encode i⟩
  by_cases hr : fieldRsv w = 0#12
  · rw [decode_of_fieldRsv_eq hr, decodeOp_eq_ok_iff] at h
    rw [← fieldRsv_append_fieldOp w, hr, h, encode]
  · rw [decode_of_fieldRsv_ne hr] at h
    cases h

theorem decode_eq_reservedBits_iff (w : CmdWord) : decode w = .error .reservedBits ↔ 16 ≤ w.toNat := by
  rw [← not_lt, ← fieldRsv_eq_zero_iff]
  refine ⟨fun h hr => ?_, decode_of_fieldRsv_ne⟩
  rw [decode_of_fieldRsv_eq hr] at h
  exact decodeOp_ne_reservedBits _ h

theorem decode_eq_reservedCode_iff (w : CmdWord) :
    decode w = .error .reservedCode ↔ w.toNat = 0 ∨ (12 ≤ w.toNat ∧ w.toNat ≤ 15) := by
  by_cases hr : fieldRsv w = 0#12
  · have hlt := (fieldRsv_eq_zero_iff w).mp hr
    rw [decode_of_fieldRsv_eq hr, decodeOp_eq_reservedCode_iff, fieldOp_toNat]
    omega
  · have hge : 16 ≤ w.toNat := not_lt.mp (mt (fieldRsv_eq_zero_iff w).mpr hr)
    rw [decode_of_fieldRsv_ne hr]
    exact iff_of_false (by simp) (by omega)

/-- Settles O2: one exact condition for each of the three things a word can decode to. -/
theorem decodeIsTotalAndInvertsEncode : Obligations.DecodeIsTotalAndInvertsEncode :=
  fun w => ⟨decode_eq_ok_iff w, decode_eq_reservedBits_iff w, decode_eq_reservedCode_iff w⟩

/-- Settles O1: eleven of the words are what the operations encode to, and five lie in the reserved range. -/
theorem operationMapDecodes : Obligations.OperationMapDecodes :=
  have reserved (w : CmdWord) := (decode_eq_reservedCode_iff w).mpr
  ⟨reserved _ (by decide), decode_encode .bytesToBits, decode_encode .bitsToBytes, decode_encode .pad,
    decode_encode .segment, decode_encode .fit, decode_encode .tblock, decode_encode .capacity, decode_encode .maxlen,
    decode_encode .digest, decode_encode .format, decode_encode .hash, reserved _ (by decide), reserved _ (by decide),
    reserved _ (by decide), reserved _ (by decide)⟩

/-! ### Reserved command words -/

theorem fitsNumber_of_lt {p : Instance} {v : Nat} (h : ∀ k, p.lenWidth = some k → v < 2 ^ k) : fitsNumber p v = true := by
  rw [← Bool.not_eq_false, fitsNumber_eq_false]
  rintro ⟨k, hk, hv⟩
  exact absurd (h k hk) (not_lt.mpr hv)

/-- A word outside the operations' range decodes to none. -/
theorem decode_error_of_reserved {w : CmdWord} (h : 16 ≤ w.toNat ∨ w.toNat = 0 ∨ (12 ≤ w.toNat ∧ w.toNat ≤ 15)) :
    ∃ e, decode w = .error e := by
  rcases h with h | h
  · exact ⟨_, (decode_eq_reservedBits_iff w).mpr h⟩
  · exact ⟨_, (decode_eq_reservedCode_iff w).mpr h⟩

/-- Settles O3: the word is checked before any operand is looked at, and its one number fits. -/
theorem reservedWordRaisesReservedEncoding : Obligations.ReservedWordRaisesReservedEncoding := by
  intro w s hw hfit
  obtain ⟨e, he⟩ := decode_error_of_reserved hw
  have htransact : transact w s = .next (s.setOut (raiseReserved w)) := by
    rw [transact_reserved he, if_pos (fitsNumber_of_lt hfit)]
  refine ⟨htransact, fun s₀ t rest hh ht hp => ?_⟩
  rw [step_of_present_ok hh hp, ht]
  exact htransact

/-! ### Ports that an operation does not read -/

/-- The answer carried over to another state: the same outputs there, or the same stop. -/
def resultOn (s' : State) : Result → Result
  | .next u => .next (s'.setOut u.out)
  | .fault f => .fault f
  | .refused r => .refused r

section resultOn
variable {s s' : State}

theorem resultOn_finish (o : Outputs) : s'.finish o = resultOn s' (s.finish o) := rfl

theorem withBits_resultOn (h : s.aBits = s'.aBits) {k k' : Bits → Result} (hk : ∀ a, k' a = resultOn s' (k a)) :
    withBits s' k' = resultOn s' (withBits s k) := by
  simp only [withBits, ← h]
  cases s.aBits with
  | none => rfl
  | some a => exact hk a

theorem withBytes_resultOn (h : s.aBytes = s'.aBytes) {k k' : Bytes → Result} (hk : ∀ a, k' a = resultOn s' (k a)) :
    withBytes s' k' = resultOn s' (withBytes s k) := by
  simp only [withBytes, ← h]
  cases s.aBytes with
  | none => rfl
  | some a => exact hk a

theorem withBlocks_resultOn (h : s.aBlocks = s'.aBlocks) {k k' : Blocks → Result} (hk : ∀ a, k' a = resultOn s' (k a)) :
    withBlocks s' k' = resultOn s' (withBlocks s k) := by
  simp only [withBlocks, ← h]
  cases s.aBlocks with
  | none => rfl
  | some a => exact hk a

theorem withN_resultOn (h : s.n = s'.n) {k k' : Nat → Result} (hk : ∀ v, k' v = resultOn s' (k v)) :
    withN s' k' = resultOn s' (withN s k) := by
  simp only [withN, ← h]
  cases s.n with
  | none => rfl
  | some v => exact hk v

theorem withM_resultOn (h : s.m = s'.m) {k k' : Nat → Result} (hk : ∀ v, k' v = resultOn s' (k v)) :
    withM s' k' = resultOn s' (withM s k) := by
  simp only [withM, ← h]
  cases s.m with
  | none => rfl
  | some v => exact hk v

/-- An operation's answer is a function of the parameters and the ports that it reads (30_encoding.md R50). -/
theorem exec_resultOn {i : Instr} (hi : s'.inst = s.inst) (h : ∀ p, readsPort i p = true → State.agreeOn p s s') :
    exec i s' = resultOn s' (exec i s) := by
  cases i with
  | bytesToBits => exact withBytes_resultOn (h .aBytes rfl) fun _ => rfl
  | bitsToBytes => exact withBits_resultOn (h .aBits rfl) fun _ => rfl
  | pad => exact withBits_resultOn (h .aBits rfl) fun _ => withN_resultOn (h .n rfl) fun _ => rfl
  | segment => exact withBits_resultOn (h .aBits rfl) fun _ => withM_resultOn (h .m rfl) fun _ => rfl
  | fit => exact withBlocks_resultOn (h .aBlocks rfl) fun _ => withM_resultOn (h .m rfl) fun _ => by rw [hi]; rfl
  | tblock => exact withN_resultOn (h .n rfl) fun _ => rfl
  | capacity => exact withN_resultOn (h .n rfl) fun _ => rfl
  | maxlen => exact withN_resultOn (h .n rfl) fun _ => rfl
  | digest => exact withBlocks_resultOn (h .aBlocks rfl) fun _ => withN_resultOn (h .n rfl) fun _ => by rw [hi]; rfl
  | format => exact withBits_resultOn (h .aBits rfl) fun _ => withN_resultOn (h .n rfl) fun _ => by rw [hi]; rfl
  | hash => exact withBits_resultOn (h .aBits rfl) fun _ => withN_resultOn (h .n rfl) fun _ => by rw [hi]; rfl

end resultOn

/-- Settles O52: the second state's answer is the first's, carried over. -/
theorem unreadPortsAreIgnored : Obligations.UnreadPortsAreIgnored := by
  intro i s s' hi h
  have hexec : exec i s' = resultOn s' (exec i s) := exec_resultOn hi h
  exact ⟨fun o ho => by rw [hexec, ho]; rfl, fun f hf => by rw [hexec, hf]; rfl⟩

/-! ### The pseudo-operations -/

/-- A run whose first step goes on is the rest of the run from there. -/
theorem run_succ_of_step {s u : State} (h : step s = .next u) (k : Nat) :
    Host.Core.run Sys2Proof.core (k + 1) s = Host.Core.run Sys2Proof.core k u := by
  have hcore : Sys2Proof.core.step s = .next u := h
  simp only [Host.Core.run, hcore]

/-- Presenting goes on when the copies do, and each port holds what its argument gives. -/
theorem present_of_driven {t : Transaction} {s : State} {bits : Option Bits} {bytes : Option Bytes}
    {blocks : Option Blocks} {n m : Option Nat} (hbits : driven (BitsArg.resolve s.out) t.aBits = .ok bits)
    (hbytes : driven (BytesArg.resolve s.out) t.aBytes = .ok bytes)
    (hblocks : driven (BlocksArg.resolve s.out) t.aBlocks = .ok blocks)
    (hn : driven (NumArg.resolve s.out) t.n = .ok n) (hm : driven (NumArg.resolve s.out) t.m = .ok m) :
    present t s = .ok { s with cmd := some t.cmd, aBits := bits, aBytes := bytes, aBlocks := blocks, n := n, m := m } := by
  simp only [present, hbits, hbytes, hblocks, hn, hm]
  rfl

/-- The copy of `R_BITS` on `A_BITS` gives the sequence that the port holds (30_encoding.md R52). -/
theorem driven_rBits {o : Outputs} {a : Bits} (h : o.rBits = some a) :
    driven (BitsArg.resolve o) (some .rBits) = .ok (some a) :=
  driven_some_ok.mpr ⟨a, copyResult_ok.mpr h, rfl⟩

theorem driven_rDigest {o : Outputs} {a : Bits} (h : o.rDigest = some a) :
    driven (BitsArg.resolve o) (some .rDigest) = .ok (some a) :=
  driven_some_ok.mpr ⟨a, copyResult_ok.mpr h, rfl⟩

/-- On unbounded ports a step that presents an operation with its operands ends with what the operation answers. -/
theorem step_of_answers {s p : State} {i : Instr} {t : Transaction} {rest : List HostEvent} {o : Outputs}
    (hu : s.inst.unbounded) (hh : s.host = .run t :: rest) (hd : t.cmd = encode i)
    (hp : present t (s.setHost rest) = .ok p) (ha : answers i p o) :
    ∃ u, step s = .next u ∧ u.inst = s.inst ∧ u.host = rest ∧ u.out = o := by
  obtain ⟨hinst, -, hhost, -⟩ := present_ok hp
  refine ⟨p.setOut o, ?_, hinst, hhost, rfl⟩
  rw [step_of_present_ok hh hp, hd, transact_of_decode_ok (decode_encode i), execChecked_unbounded (hinst ▸ hu)]
  exact exec_of_answers ha

/-- The digest of a fitting message under the standard parameters is the reference digest (45_composite.md R83). -/
theorem hashOutputs_bytesToBits {p : Instance} {m : Bytes} (hiv : p.iv = Sha256.iv) (hcomp : p.compress = .standard)
    (hl : 8 * m.length < 2 ^ 64) (hc : 8 * m.length + 65 ≤ 512 * p.capacity) :
    hashOutputs p (bytesToBits m) (8 * m.length) =
      { Outputs.success with
        rDigest := some (bytesToBits (referenceSha256 m)), rTblock := some (tBlock (8 * m.length)) } := by
  have hlen : 8 * m.length ≤ (bytesToBits m).length := (bytesToBits_length m).ge
  have hcap : tBlock (8 * m.length) ≤ p.capacity := (tBlock_le_iff _ _).mpr (by omega)
  have hreal : (formatBlocks p.capacity (bytesToBits m) (8 * m.length)).take (tBlock (8 * m.length)) =
      chunks 512 (tBlock (8 * m.length)) (padded (bytesToBits m) (8 * m.length)) :=
    List.take_left' (chunks_length _ _ _)
  have hdigest : digestBits (selectedValue p (formatBlocks p.capacity (bytesToBits m) (8 * m.length))
      (tBlock (8 * m.length))) = bytesToBits (referenceSha256 m) := by
    rw [digestBits_eq_bytesToBits, selectedValue_eq (by rw [formatBlocks_length hcap]; exact hcap), hreal, hiv, hcomp,
      referenceSha256, padded_length_of_le hlen, Nat.mul_div_cancel_left _ (by decide)]
    rfl
  rw [hashOutputs_of_accepted hl hcap hlen, hdigest]

/-- Settles O42: three steps, each presenting the results of the one before. -/
theorem sha256MacroComputesReferenceDigest : Obligations.Sha256MacroComputesReferenceDigest := by
  intro s m rest hiv hcomp hu hl hc hh
  obtain ⟨u, hsu, hui, huh, huo⟩ := step_of_answers (i := .bytesToBits) hu hh rfl
    (present_of_driven rfl rfl rfl rfl rfl) ⟨m, rfl, rfl⟩
  have hbits : u.out.rBits = some (bytesToBits m) := by rw [huo]
  obtain ⟨v, huv, hvi, hvh, hvo⟩ := step_of_answers (i := .hash) (hui ▸ hu) huh rfl
    (present_of_driven (driven_rBits hbits) rfl rfl rfl rfl) ⟨_, _, rfl, rfl, rfl⟩
  have hdigest : v.out.rDigest = some (bytesToBits (referenceSha256 m)) := by
    rw [hvo, State.setHost_inst, hui, hashOutputs_bytesToBits hiv hcomp hl hc]
  have hvs : v.inst = s.inst := hvi.trans hui
  obtain ⟨t, hvt, hti, hth, hto⟩ := step_of_answers (i := .bitsToBytes) (hvs ▸ hu) hvh rfl
    (present_of_driven (driven_rDigest hdigest) rfl rfl rfl rfl) ⟨_, rfl, rfl⟩
  refine ⟨t, ?_, hth, hti.trans hvs, ?_⟩
  · rw [run_succ_of_step hsu, run_succ_of_step huv, run_succ_of_step hvt]
    rfl
  · rw [hto, bitsToBytesOutputs_bytesToBits]
    rfl

/-- `PAD` on operands that it accepts (41_padder.md R59). -/
theorem padOutputs_of_accepted {a : Bits} {len : Nat} (hl : len < 2 ^ 64) (h : len ≤ a.length) :
    padOutputs a len = { Outputs.success with rBits := some (padded a len) } := by
  rcases padOutputs_cases a len with ⟨h1, -⟩ | ⟨-, h2, -⟩ | ⟨-, -, ho⟩
  · omega
  · omega
  · exact ho

/-- The padded sequence cut into blocks of 512 bits (43_blockspace.md R69). -/
theorem segmentOutputs_padded {a : Bits} {len : Nat} (h : len ≤ a.length) : segmentOutputs (padded a len) 512 =
    { Outputs.success with rBlocks := some (chunks 512 (tBlock len) (padded a len)) } := by
  have hlen := padded_length_of_le h
  rw [segmentOutputs_of_accepted (by decide) (by rw [hlen]; exact Nat.mul_mod_right _ _), hlen,
    Nat.mul_div_cancel_left _ (by decide)]

/-- Settles O43: two steps; the padded sequence fills the blocks it is cut into. -/
theorem padsegMacroGivesUnfittedBlocks : Obligations.PadsegMacroGivesUnfittedBlocks := by
  intro s a len rest hu hl h hh
  obtain ⟨u, hsu, hui, huh, huo⟩ := step_of_answers (i := .pad) hu hh rfl
    (present_of_driven rfl rfl rfl rfl rfl) ⟨a, len, rfl, rfl, rfl⟩
  have hbits : u.out.rBits = some (padded a len) := by rw [huo, padOutputs_of_accepted hl h]
  obtain ⟨t, hut, -, hth, hto⟩ := step_of_answers (i := .segment) (hui ▸ hu) huh rfl
    (present_of_driven (driven_rBits hbits) rfl rfl rfl rfl) ⟨_, 512, rfl, rfl, rfl⟩
  have hlen := padded_length_of_le h
  refine ⟨t, chunks 512 (tBlock len) (padded a len), ?_, hth, ?_, chunks_length _ _ _, ?_⟩
  · rw [run_succ_of_step hsu, run_succ_of_step hut]
    rfl
  · rw [hto, segmentOutputs_padded h]
    rfl
  · rw [chunks_flatten _ _ _ hlen.ge, ← hlen, List.take_length]

/-! ### The assembler -/

/-- A name is that of one port at most. -/
theorem ofName?_eq_some_iff {name : String} {p : InPort} : InPort.ofName? name = some p ↔ p.name = name := by
  constructor
  · intro h
    simpa using List.find?_some h
  · rintro rfl
    cases p <;> decide

theorem mnemonic_of_ofMnemonic? {name : String} {i : Instr} (h : Instr.ofMnemonic? name = some i) : i.mnemonic = name := by
  simpa using List.find?_some h

theorem argSuits_iff {a : String × TextValue} :
    argSuits a = true ↔ ∃ p, InPort.ofName? a.1 = some p ∧ a.2.suits p = true := by
  unfold argSuits
  cases InPort.ofName? a.1 <;> simp

/-- An argument is accepted exactly when it suits a port that is still free. -/
theorem assembleArg_ok_iff {t u : Transaction} {a : String × TextValue} : assembleArg t a = .ok u ↔
    ∃ p, InPort.ofName? a.1 = some p ∧ Transaction.drives t p = false ∧ a.2.suits p = true ∧ u = drivePort t a.2 p := by
  refine ⟨assembleArg_inv, ?_⟩
  rintro ⟨p, hp, hf, hs, rfl⟩
  simp [assembleArg, hp, hf, hs]

/-- Arguments are accepted exactly when each suits its port, none names a port twice, and none a port driven before. -/
theorem assembleArgs_ok_iff {args : List (String × TextValue)} {t : Transaction} :
    (∃ u, assembleArgs t args = .ok u) ↔ (∀ a ∈ args, argSuits a = true) ∧ (args.map Prod.fst).Nodup ∧
      ∀ p, Transaction.drives t p = true → p.name ∉ args.map Prod.fst := by
  induction args generalizing t with
  | nil => simp [assembleArgs]
  | cons a rest ih =>
    rw [List.forall_mem_cons, List.map_cons, List.nodup_cons]
    simp only [List.mem_cons, not_or]
    constructor
    · rintro ⟨u, h⟩
      obtain ⟨t', h1, h2⟩ := assembleArgs_cons h
      obtain ⟨p, hp, hf, hs, rfl⟩ := assembleArg_inv h1
      obtain ⟨hsuits, hnodup, hfree⟩ := ih.mp ⟨u, h2⟩
      have hname : p.name = a.1 := ofName?_eq_some_iff.mp hp
      refine ⟨⟨argSuits_iff.mpr ⟨p, hp, hs⟩, hsuits⟩, ⟨?_, hnodup⟩, fun q hq => ⟨?_, ?_⟩⟩
      · rw [← hname]
        exact hfree p ((drivePort_drives t a.2 p p).mpr (.inr rfl))
      · intro hqa
        rw [ofName?_eq_some_iff.mpr hqa, Option.some.injEq] at hp
        rw [← hp, hq] at hf
        cases hf
      · exact hfree q ((drivePort_drives t a.2 p q).mpr (.inl hq))
    · rintro ⟨⟨ha, hsuits⟩, ⟨hnotin, hnodup⟩, hfree⟩
      obtain ⟨p, hp, hs⟩ := argSuits_iff.mp ha
      have hname : p.name = a.1 := ofName?_eq_some_iff.mp hp
      have hf : Transaction.drives t p = false := by
        rw [← Bool.not_eq_true]
        exact fun hd => (hfree p hd).1 hname
      have h1 : assembleArg t a = .ok (drivePort t a.2 p) := assembleArg_ok_iff.mpr ⟨p, hp, hf, hs, rfl⟩
      simp only [assembleArgs, h1]
      refine ih.mpr ⟨hsuits, hnodup, fun q hq => ?_⟩
      rcases (drivePort_drives t a.2 p q).mp hq with hq | rfl
      · exact (hfree q hq).2
      · rw [hname]
        exact hnotin

theorem headWord_ok_iff_known (h : TextHead) : (∃ w, headWord h = .ok w) ↔ h.known = true := by
  cases h with
  | cmd w => simp [headWord, TextHead.known]
  | op name => cases hn : Instr.ofMnemonic? name <;> simp [headWord, TextHead.known, hn]

theorem headWord_op {name : String} {w : CmdWord} (h : headWord (.op name) = .ok w) :
    ∃ i : Instr, i.mnemonic = name ∧ w = encode i := by
  cases hn : Instr.ofMnemonic? name with
  | none => simp [headWord, hn] at h
  | some i =>
    simp only [headWord, hn, Except.ok.injEq] at h
    exact ⟨i, mnemonic_of_ofMnemonic? hn, h.symm⟩

/-- An assembled transaction: its beginning gives the command word, and its arguments are accepted one by one. -/
theorem assemble_ok_iff {t : TextTransaction} {u : Transaction} : assemble t = .ok u ↔
    ∃ w, headWord t.head = .ok w ∧ assembleArgs { cmd := w } t.args = .ok u := by
  unfold assemble
  cases headWord t.head <;> simp

/-- The assembler accepts exactly the valid texts (30_encoding.md R52, R55). -/
theorem assemble_ok_iff_wf (t : TextTransaction) : (∃ u, assemble t = .ok u) ↔ t.wf = true := by
  have hfree (w : CmdWord) (p : InPort) : Transaction.drives { cmd := w } p = false := by cases p <;> rfl
  have hargs (w : CmdWord) : (∃ u, assembleArgs { cmd := w } t.args = .ok u) ↔
      t.args.all argSuits = true ∧ (t.args.map Prod.fst).Nodup := by
    simp [assembleArgs_ok_iff, hfree]
  simp only [assemble_ok_iff, TextTransaction.wf, Bool.and_eq_true, decide_eq_true_eq, and_assoc,
    ← headWord_ok_iff_known]
  constructor
  · rintro ⟨u, w, hw, hu⟩
    exact ⟨⟨w, hw⟩, (hargs w).mp ⟨u, hu⟩⟩
  · rintro ⟨⟨w, hw⟩, h⟩
    obtain ⟨u, hu⟩ := (hargs w).mpr h
    exact ⟨u, w, hw, hu⟩

/-- A port that no accepted argument names stays as it was. -/
theorem assembleArgs_unnamed {args : List (String × TextValue)} {t u : Transaction} (h : assembleArgs t args = .ok u)
    (p : InPort) (hp : p.name ∉ args.map Prod.fst) : sameOn p u t := by
  have hnone : ∀ a ∈ args, InPort.ofName? a.1 ≠ some p := fun a ha hname =>
    hp (ofName?_eq_some_iff.mp hname ▸ List.mem_map_of_mem ha)
  have hsame := (assembleArgs_keeps h).2 p (.inr hnone)
  cases p <;> exact hsame.symm

/-- A port that an accepted argument names is driven with its value. -/
theorem assembleArgs_named {args : List (String × TextValue)} {t u : Transaction} (h : assembleArgs t args = .ok u)
    (p : InPort) (v : TextValue) (hv : (p.name, v) ∈ args) : sameOn p u (drivePort t v p) := by
  have hsame := assembleArgs_mem h hv (ofName?_eq_some_iff.mpr rfl)
  cases p <;> exact hsame.symm

/-! ### The literals -/

/-- The bytes of an ASCII text are its codes (30_encoding.md R52). -/
theorem textBytes_ascii_toNat {c : List Char} (h : isAscii c = true) :
    (textBytes (.ascii c)).map BitVec.toNat = c.map Char.toNat := by
  rw [textBytes, List.map_map]
  refine List.map_congr_left fun x hx => ?_
  have hlt : x.toNat < 128 := by simpa using List.all_eq_true.mp h x hx
  rw [Function.comp, BitVec.toNat_ofNat, Nat.mod_eq_of_lt (by omega)]

/-- On a bit port a byte literal gives the bits of its bytes. -/
theorem textBits_of_givesBytes {q : TextSeq} (h : q.givesBytes = true) : textBits q = bytesToBits (textBytes q) := by
  cases q with
  | bin s => cases h
  | zeros n => cases h
  | hex b => rfl
  | ascii c => rfl
  | rep c n => rfl

/-- Bit `8*k + j` is bit `7 - j` of byte `k` (20_memory.md R31). -/
theorem bytesToBits_getElem? {b : Bytes} {k j : Nat} {x : Byte} (hx : b[k]? = some x) (hj : j < 8) :
    (bytesToBits b)[8 * k + j]? = some (x.toNat.testBit (7 - j)) := by
  rw [bytesToBits, flatMap_getElem? byteBits 8 byteBits_length b k j x hx hj, byteBits_eq_be, be_getElem? hj,
    bitOf_eq_testBit]

/-- Settles O59: acceptance, then the command word and each port by what its argument drives, then the literals. -/
theorem assemblerAcceptsExactlyValidText : Obligations.AssemblerAcceptsExactlyValidText := by
  refine ⟨fun t => ⟨assemble_ok_iff_wf t, fun u hu => ?_⟩, fun s => rfl, fun n => rfl, fun b => rfl,
    fun c => textBytes_ascii_toNat, fun c n => rfl, fun q hq => ?_⟩
  · obtain ⟨w, hw, hargs⟩ := assemble_ok_iff.mp hu
    have hcmd : u.cmd = w := (assembleArgs_keeps hargs).1
    have named := assembleArgs_named hargs
    have unnamed := assembleArgs_unnamed hargs
    refine ⟨fun name hn => ?_, fun w' hw' => ?_, fun q => named .aBits _, fun q => named .aBytes _,
      fun qs => named .aBlocks _, fun v => named .n _, fun v => named .m _, named .aBits _, named .aBits _,
      named .aBytes _, named .aBlocks _, named .n _, named .n _, named .m _, named .m _, unnamed .aBits, unnamed .aBytes,
      unnamed .aBlocks, unnamed .n, unnamed .m⟩
    · rw [hn] at hw
      rw [hcmd]
      exact headWord_op hw
    · rw [hw', headWord, Except.ok.injEq] at hw
      rw [hcmd, hw]
  · rw [textBits_of_givesBytes hq]
    exact ⟨bytesToBits_length _, fun k j x => bytesToBits_getElem?⟩

end Sys2Proof.Machine
end

section
/-! SUPPORT. The statements of 40_serializer.md: `BYTES_TO_BITS`, `BITS_TO_BYTES`, and that each undoes the other. -/

namespace Sys2Proof.Machine

/-! ### Bytes to bits -/

/-- Settles O10: the result is `bytesToBits` of the operand, whose length and bits are known. -/
theorem bytesToBitsRule : Obligations.BytesToBitsRule :=
  ⟨decode_encode .bytesToBits, fun _ b hb =>
    ⟨bytesToBits b, exec_of_answers ⟨b, hb, rfl⟩, bytesToBits_length b, fun _ _ _ => bytesToBits_getElem?⟩⟩

/-! ### Bits to bytes -/

/-- `BITS_TO_BYTES` on a length that it accepts (40_serializer.md R57). -/
theorem bitsToBytesOutputs_of_aligned {a : Bits} (h : a.length % 8 = 0) :
    bitsToBytesOutputs a = { Outputs.success with rBytes := some (bitsToBytes a) } := by
  rcases bitsToBytesOutputs_cases a with ⟨h', -⟩ | ⟨-, ho⟩
  · exact absurd h h'
  · exact ho

/-- `BITS_TO_BYTES` on a length that it does not accept (40_serializer.md R57). -/
theorem bitsToBytesOutputs_of_misaligned {a : Bits} (h : a.length % 8 ≠ 0) :
    bitsToBytesOutputs a = raiseAlignment a.length 8 := by
  rcases bitsToBytesOutputs_cases a with ⟨-, ho⟩ | ⟨h', -⟩
  · exact ho
  · exact absurd h' h

/-- The natural of a sequence is the sum of its bits weighted by their places, the first bit highest. -/
theorem natOfBits_eq_sum (s : Bits) :
    natOfBits s = ∑ j ∈ Finset.range s.length, (s.getD j false).toNat * 2 ^ (s.length - 1 - j) := by
  induction s with
  | nil => rfl
  | cons b s ih =>
    have hhead : natOfBits [b] = b.toNat := by simp [natOfBits]
    have hplace (j : Nat) : s.length - 1 - j = s.length - (j + 1) := by omega
    rw [← List.singleton_append, natOfBits_append, hhead, ih, List.singleton_append, List.length_cons,
      Finset.sum_range_succ', add_comm]
    simp only [List.getD_cons_succ, List.getD_cons_zero, hplace, Nat.sub_zero, Nat.add_sub_cancel]

/-- A byte that `BITS_TO_BYTES` gives is the natural of eight bits of the sequence. -/
theorem bitsToBytes_getElem?_toNat {a : Bits} {k : Nat} {x : Byte} (hx : (bitsToBytes a)[k]? = some x) :
    (slice (8 * k) (8 * k + 8) a).length = 8 ∧ x.toNat = natOfBits (slice (8 * k) (8 * k + 8) a) := by
  obtain ⟨hk, -⟩ := List.getElem?_eq_some_iff.mp hx
  rw [bitsToBytes_length] at hk
  rw [bitsToBytes_getElem? hk, Option.some.injEq] at hx
  have hlen : (slice (8 * k) (8 * k + 8) a).length = 8 := by rw [slice_length]; omega
  have hlt := natOfBits_lt (slice (8 * k) (8 * k + 8) a)
  rw [hlen] at hlt
  exact ⟨hlen, by rw [← hx, BitVec.toNat_ofNat, Nat.mod_eq_of_lt hlt]⟩

/-- Byte `k` is the weighted sum of bits `8*k … 8*k+7` (40_serializer.md R57). -/
theorem bitsToBytes_toNat_eq_sum {a : Bits} {k : Nat} {x : Byte} (hx : (bitsToBytes a)[k]? = some x) :
    x.toNat = ∑ j ∈ Finset.range 8, (a.getD (8 * k + j) false).toNat * 2 ^ (7 - j) := by
  obtain ⟨hlen, hval⟩ := bitsToBytes_getElem?_toNat hx
  rw [hval, natOfBits_eq_sum, hlen]
  refine Finset.sum_congr rfl fun j hj => ?_
  have hj : j < 8 := Finset.mem_range.mp hj
  rw [List.getD_eq_getElem?_getD, List.getD_eq_getElem?_getD, slice_getElem? a (by omega)]

/-- Settles O11: the error, or the bytes as weighted sums. -/
theorem bitsToBytesRule : Obligations.BitsToBytesRule := by
  refine ⟨decode_encode .bitsToBytes, fun s a ha => ⟨fun h => ?_, fun h => ?_⟩⟩
  · exact exec_of_answers ⟨a, ha, (bitsToBytesOutputs_of_misaligned h).symm⟩
  · exact ⟨bitsToBytes a, exec_of_answers ⟨a, ha, (bitsToBytesOutputs_of_aligned h).symm⟩, bitsToBytes_length a,
      fun _ _ => bitsToBytes_toNat_eq_sum⟩

/-! ### The round trip -/

/-- The bits of the bytes cut from a sequence of whole bytes are the sequence (40_serializer.md R58): each chunk is the
eight bits of the natural that it writes. -/
theorem bytesToBits_bitsToBytes {a : Bits} (h : a.length % 8 = 0) : bytesToBits (bitsToBytes a) = a := by
  have hfill : 8 * (a.length / 8) = a.length := Nat.mul_div_cancel' (Nat.dvd_of_mod_eq_zero h)
  have hchunk : ∀ c ∈ chunks 8 (a.length / 8) a, byteBits (BitVec.ofNat 8 (natOfBits c)) = c := fun c hc => by
    have hc8 : c.length = 8 := chunks_width hfill.le c hc
    rw [byteBits_ofNat, ← hc8, be_natOfBits]
  calc bytesToBits (bitsToBytes a)
      = ((chunks 8 (a.length / 8) a).map fun c => byteBits (BitVec.ofNat 8 (natOfBits c))).flatten := by
        rw [bytesToBits, bitsToBytes, List.flatMap_map, List.flatMap_def]
    _ = (chunks 8 (a.length / 8) a).flatten := by rw [List.map_congr_left hchunk, List.map_id']
    _ = a := by rw [chunks_flatten _ _ _ hfill.le, hfill, List.take_length]

/-- Settles O12: what the first operation answers is read back by `exec_next`, and the second one undoes it. -/
theorem serializerRoundTrip : Obligations.SerializerRoundTrip := by
  refine ⟨fun s t s' b hb ht hs' => ?_, fun s t s' a ha h8 ht hs' => ?_⟩
  · obtain ⟨_, rfl, b', hb', rfl⟩ := exec_next ht
    obtain rfl : b = b' := Option.some.inj (hb.symm.trans hb')
    exact exec_of_answers ⟨_, hs', (bitsToBytesOutputs_bytesToBits b).symm⟩
  · obtain ⟨_, rfl, a', ha', rfl⟩ := exec_next ht
    obtain rfl : a = a' := Option.some.inj (ha.symm.trans ha')
    rw [bitsToBytesOutputs_of_aligned h8] at hs'
    have hout := exec_of_answers (i := .bytesToBits) ⟨_, hs', rfl⟩
    rwa [bytesToBits_bitsToBytes h8] at hout

end Sys2Proof.Machine
end

section
/-! SUPPORT. The statements of 41_padder.md: `PAD`, the length and the shape of its result, and that it reads the first `L`
bits alone. -/

namespace Sys2Proof.Machine

/-! ### The padded sequence -/

/-- The zero run as R59 writes it, over the integers. -/
theorem zeroRun_eq_int (len : Nat) : zeroRun len = ((447 - (len : Int) % 512) % 512).toNat := by
  unfold zeroRun; omega

/-- The zero run is the least that reaches 448 modulo 512 (41_padder.md R60): it reaches it, and a shorter run that does
would differ from it by a multiple of 512. -/
theorem zeroRun_isLeast (len : Nat) : IsLeast { z : Nat | (len + 1 + z) % 512 = 448 } (zeroRun len) := by
  have hfill := zeroRun_spec len
  have hlt := zeroRun_lt len
  have hreach : (len + 1 + zeroRun len) % 512 = 448 := by omega
  have hleast (z : Nat) (hz : (len + 1 + z) % 512 = 448) : zeroRun len ≤ z := by omega
  exact ⟨hreach, hleast⟩

/-- The real blocks, counted from the whole blocks of the message and the crossing flag (41_padder.md R63). -/
theorem tBlock_eq_add_crossing {len x : Nat} (hx : x = if 448 ≤ len % 512 then 1 else 0) :
    tBlock len = len / 512 + 1 + x := by
  unfold tBlock
  split at hx <;> omega

/-- The big-endian bits of a natural are its binary digits, the highest first. -/
theorem be_eq_map_testBit (w v : Nat) : be w v = (List.range w).map fun i => v.testBit (w - 1 - i) := by
  simp only [be, bitOf_eq_testBit]

/-- The padded sequence as R59 writes it. -/
theorem padded_eq_rule (a : Bits) (len : Nat) : padded a len =
    a.take len ++ [true] ++ List.replicate ((447 - (len : Int) % 512) % 512).toNat false ++
      (List.range 64).map fun i => len.testBit (63 - i) := by
  rw [padded, slice_zero, zeros, zeroRun_eq_int, be_eq_map_testBit]

/-- What stands before the suffix of the padded sequence. -/
theorem padded_take_before_suffix {a : Bits} {len : Nat} (h : len ≤ a.length) :
    (padded a len).take (len + 1 + zeroRun len) = a.take len ++ [true] ++ List.replicate (zeroRun len) false := by
  rw [padded, slice_zero]
  exact List.take_left' (by simp [h]; omega)

/-- The padded sequence reads the first `len` bits of its buffer alone (41_padder.md R64). -/
theorem padded_congr {a a' : Bits} {len : Nat} (h : a.take len = a'.take len) : padded a len = padded a' len := by
  simp only [padded, slice_zero, h]

/-! ### `PAD` -/

section operands
variable {s : State} {a : Bits} {len : Nat} (ha : s.aBits = some a) (hn : s.n = some len)
include ha hn

/-- `PAD` with its operands driven ends with the outputs of R59. -/
theorem exec_pad : exec .pad s = .next (s.setOut (padOutputs a len)) := exec_of_answers ⟨a, len, ha, hn, rfl⟩

/-- `PAD` on operands that it accepts gives the padded sequence (41_padder.md R59). -/
theorem exec_pad_of_accepted (hl : len < 2 ^ 64) (h : len ≤ a.length) :
    exec .pad s = .next (s.setOut { Outputs.noValue with status := some 0#3, rBits := some (padded a len) }) := by
  rw [exec_pad ha hn, padOutputs_of_accepted hl h]
  rfl

end operands

/-- `PAD` on a length that its suffix cannot hold; this check comes first (60_exceptions.md R94). -/
theorem padOutputs_of_overflow {a : Bits} {len : Nat} (hl : 2 ^ 64 ≤ len) : padOutputs a len = raiseOverflow len :=
  if_pos hl

/-- `PAD` on a length above that of its buffer (41_padder.md R59). -/
theorem padOutputs_of_short {a : Bits} {len : Nat} (hl : len < 2 ^ 64) (h : a.length < len) :
    padOutputs a len = raisePrecondition len len a.length := by
  rcases padOutputs_cases a len with ⟨h1, -⟩ | ⟨-, -, ho⟩ | ⟨-, h2, -⟩
  · omega
  · exact ho
  · omega

/-- Settles O13: the two errors in their order, or the padded sequence. -/
theorem padRule : Obligations.PadRule := by
  refine ⟨decode_encode .pad, fun s a len ha hn => ⟨fun hl => ?_, fun hl h => ?_, fun hl h => ?_⟩⟩
  · rw [exec_pad ha hn, padOutputs_of_overflow hl]
    rfl
  · rw [exec_pad ha hn, padOutputs_of_short hl h]
    rfl
  · rw [exec_pad_of_accepted ha hn hl h, padded_eq_rule]

/-- Settles O14: the zero run is the least one, and `zeroRun_spec` says that it fills the real blocks. -/
theorem padLengthAndLeastZeroRun : Obligations.PadLengthAndLeastZeroRun := by
  intro s a len ha hn hl h
  have hfill := zeroRun_spec len
  have hlt := zeroRun_lt len
  have hlen := padded_length_of_le h
  exact ⟨padded a len, zeroRun len, exec_pad_of_accepted ha hn hl h, padded_take_before_suffix h, zeroRun_isLeast len,
    by omega, by omega, hlen, by omega, by omega⟩

/-- Settles O15: the four regions of the padded sequence, where `E` is the end of its real blocks. -/
theorem padBitClosedForm : Obligations.PadBitClosedForm := by
  intro s a len e ha hn hl h he
  obtain rfl : e = 512 * tBlock len := he
  have hfill := zeroRun_spec len
  exact ⟨by omega, padded a len, exec_pad_of_accepted ha hn hl h, padded_length_of_le h, fun _ => padded_message h,
    padded_stop h, fun _ => padded_zero h, fun _ => padded_suffix h⟩

/-- Settles O16: a length of `2 ^ 64` or more raises the same error on both; else both give the same padded sequence. -/
theorem padReadsOnlyLogicalLength : Obligations.PadReadsOnlyLogicalLength := by
  intro s s' a a' len ha ha' hn hn' h h' htake
  have hout : padOutputs a' len = padOutputs a len := by
    rcases Nat.lt_or_ge len (2 ^ 64) with hl | hl
    · rw [padOutputs_of_accepted hl h, padOutputs_of_accepted hl h', padded_congr htake]
    · rw [padOutputs_of_overflow hl, padOutputs_of_overflow hl]
  exact ⟨padOutputs a len, exec_pad ha hn, hout ▸ exec_pad ha' hn'⟩

/-- Settles O17: the suffix starts at bit 448 of block `L/512 + X`, the last of the `L/512 + 1 + X` real blocks. -/
theorem padShapeFollowsResidue : Obligations.PadShapeFollowsResidue := by
  intro s a len x ha hn hl h hx
  have ht := tBlock_eq_add_crossing hx
  refine ⟨padded a len, exec_pad_of_accepted ha hn hl h, ?_, ?_, fun q h1 h2 => ?_, fun i hi => ?_⟩
  · rw [padded_length_of_le h, ht]
  · rw [Nat.div_add_mod, padded_stop h]
  · exact padded_zero h h1 (by omega)
  · rw [padded_suffix h (by omega) (by omega)]
    congr 2
    omega

end Sys2Proof.Machine
end

section
/-! SUPPORT. The statements of 42_segment_fit.md: `SEGMENT` and `FIT` by cases, and that `FIT` gives its own result again. -/

namespace Sys2Proof.Machine

/-! ### `SEGMENT` -/

/-- `SEGMENT` at width 0; this check comes first (42_segment_fit.md R65). -/
theorem segmentOutputs_zero_width (a : Bits) : segmentOutputs a 0 = raisePrecondition a.length 1 0 := rfl

/-- `SEGMENT` on a sequence that its width does not divide (42_segment_fit.md R65). -/
theorem segmentOutputs_of_misaligned {a : Bits} {w : Nat} (hw : 1 ≤ w) (ha : a.length % w ≠ 0) :
    segmentOutputs a w = raiseAlignment a.length w := by
  rcases segmentOutputs_cases a w with ⟨h, -⟩ | ⟨-, -, ho⟩ | ⟨-, h, -⟩
  · omega
  · exact ho
  · exact absurd h ha

/-- A chunk is the run of `w` bits from its own start. -/
theorem chunks_eq_take_drop {w n i : Nat} {s x : Bits} (hx : (chunks w n s)[i]? = some x) :
    x = (s.drop (w * i)).take w := by
  obtain ⟨hi, -⟩ := List.getElem?_eq_some_iff.mp hx
  rw [chunks_length] at hi
  rw [chunks_getElem? s hi, Option.some.injEq] at hx
  rw [← hx, slice, Nat.add_sub_cancel_left]

/-- Settles O18: the two errors in their order, or the chunks, which the sequence fills exactly. -/
theorem segmentRule : Obligations.SegmentRule := by
  refine ⟨decode_encode .segment, fun s a w ha hm => ?_⟩
  have hexec : exec .segment s = .next (s.setOut (segmentOutputs a w)) := exec_of_answers ⟨a, w, ha, hm, rfl⟩
  rw [hexec]
  refine ⟨fun hw => ?_, fun hw hmod => ?_, fun hw hmod => ?_⟩
  · rw [hw, segmentOutputs_zero_width]
    rfl
  · rw [segmentOutputs_of_misaligned hw hmod]
    rfl
  · have hfill : w * (a.length / w) = a.length := Nat.mul_div_cancel' (Nat.dvd_of_mod_eq_zero hmod)
    refine ⟨chunks w (a.length / w) a, ?_, chunks_length _ _ _, fun i x hx => ⟨?_, chunks_eq_take_drop hx⟩⟩
    · rw [segmentOutputs_of_accepted hw hmod]
      rfl
    · exact chunks_width hfill.le x (List.mem_of_getElem? hx)

/-! ### `FIT` -/

/-- `FIT` at width 0; this check comes first (42_segment_fit.md R66). -/
theorem fitOutputs_zero_width (c : Nat) (b : Blocks) : fitOutputs c b 0 = raisePrecondition 0 1 0 := rfl

section width
variable {c w : Nat} {b : Blocks} (hw : 1 ≤ w)
include hw

/-- `FIT` reports the first block, in index order, whose width is wrong (42_segment_fit.md R66). -/
theorem fitOutputs_of_wrongWidth {i : Nat} {x : Bits} (hx : b[i]? = some x) (hne : x.length ≠ w)
    (hbefore : ∀ y ∈ b.take i, y.length = w) : fitOutputs c b w = raisePrecondition x.length w i := by
  have hfirst : wrongWidth w 0 b = some (i, x.length) :=
    (wrongWidth_eq_some b 0 i x.length).mpr ⟨i, x, (Nat.zero_add i).symm, hx, rfl, hne, hbefore⟩
  simp only [fitOutputs, hfirst, if_neg (show w ≠ 0 by omega)]

/-- `FIT` on blocks of the right width depends on their count alone (42_segment_fit.md R66). -/
theorem fitOutputs_of_width (hall : ∀ x ∈ b, x.length = w) : fitOutputs c b w =
    if b.length > c then raiseCapacity b.length b.length c
    else { Outputs.success with rBlocks := some (fillTo c w b) } := by
  simp only [fitOutputs, (wrongWidth_eq_none b 0).mpr hall, if_neg (show w ≠ 0 by omega)]

/-- `FIT` on more blocks than the capacity. -/
theorem fitOutputs_of_excess (hall : ∀ x ∈ b, x.length = w) (hc : c < b.length) :
    fitOutputs c b w = raiseCapacity b.length b.length c := by
  rw [fitOutputs_of_width hw hall, if_pos hc]

/-- `FIT` on blocks that it accepts. -/
theorem fitOutputs_of_accepted (hall : ∀ x ∈ b, x.length = w) (hc : b.length ≤ c) :
    fitOutputs c b w = { Outputs.success with rBlocks := some (fillTo c w b) } := by
  rw [fitOutputs_of_width hw hall, if_neg (by omega)]

end width

/-- Settles O20: the three errors in their order, or the blocks and their fillers. -/
theorem fitRule : Obligations.FitRule := by
  refine ⟨decode_encode .fit, fun s b w hb hm => ?_⟩
  have hexec : exec .fit s = .next (s.setOut (fitOutputs s.inst.capacity b w)) := exec_of_answers ⟨b, w, hb, hm, rfl⟩
  rw [hexec]
  refine ⟨fun hw => ?_, fun i x hw hx hne hbefore => ?_, fun hw hall hc => ?_, fun hw hall hc => ?_⟩
  · rw [hw, fitOutputs_zero_width]
    rfl
  · rw [fitOutputs_of_wrongWidth hw hx hne hbefore]
    rfl
  · rw [fitOutputs_of_excess hw hall hc]
    rfl
  · rw [fitOutputs_of_accepted hw hall hc]
    rfl

/-! ### What `FIT` gives -/

/-- At most `c` blocks are filled to exactly `c`. -/
theorem fillTo_length {c w : Nat} {b : Blocks} (hc : b.length ≤ c) : (fillTo c w b).length = c := by
  simp [fillTo, hc]

/-- The fillers have the width of the blocks. -/
theorem fillTo_width {c w : Nat} {b : Blocks} (hall : ∀ x ∈ b, x.length = w) : ∀ x ∈ fillTo c w b, x.length = w := by
  intro x hx
  rcases List.mem_append.mp hx with hx | hx
  · exact hall x hx
  · rw [List.eq_of_mem_replicate hx, zeros_length]

/-- Blocks that already fill the capacity get no filler. -/
theorem fillTo_eq_self {c w : Nat} {b : Blocks} (hc : c ≤ b.length) : fillTo c w b = b := by
  rw [fillTo, Nat.sub_eq_zero_of_le hc, List.replicate_zero, List.append_nil]

/-- Outputs of `FIT` that hold blocks hold exactly `c` of them, all of the width asked for, which is not 0. -/
theorem fitOutputs_rBlocks {c w : Nat} {b b' : Blocks} (h : (fitOutputs c b w).rBlocks = some b') :
    1 ≤ w ∧ b'.length = c ∧ ∀ x ∈ b', x.length = w := by
  rcases fitOutputs_cases c b w with ⟨-, ho⟩ | ⟨-, _, _, -, -, -, ho⟩ | ⟨-, -, -, ho⟩ | ⟨hw, hall, hc, ho⟩ <;> rw [ho] at h
  · cases h
  · cases h
  · cases h
  · cases h
    exact ⟨hw, fillTo_length hc, fillTo_width hall⟩

/-- Settles O21: the result of `FIT` fills the capacity with blocks of its width, so `FIT` accepts it and adds no filler. -/
theorem fitIsIdempotent : Obligations.FitIsIdempotent := by
  intro s t s' b h hb hi hb' hm'
  obtain ⟨o, rfl, b₀, w, -, hm, rfl⟩ := exec_next h
  obtain ⟨hw, hlen, hall⟩ := fitOutputs_rBlocks hb
  have hagain : fitOutputs s'.inst.capacity b w = { Outputs.success with rBlocks := some b } := by
    rw [hi, fitOutputs_of_accepted hw hall hlen.le, fillTo_eq_self hlen.ge]
  exact exec_of_answers ⟨b, w, hb', hm'.trans hm, hagain.symm⟩

end Sys2Proof.Machine
end

section
/-! SUPPORT. The statements of 43_blockspace.md: `TBLOCK`, `CAPACITY` and `MAXLEN`, the lengths that fit a capacity, and the
capacity of a build. -/

namespace Sys2Proof.Machine

/-! ### `TBLOCK` and `CAPACITY` -/

/-- `TBLOCK` with its operand driven (43_blockspace.md R68). -/
theorem exec_tblock {s : State} {len : Nat} (hn : s.n = some len) : exec .tblock s =
    .next (s.setOut { Outputs.noValue with status := some 0#3, rNum := some (tBlock len) }) :=
  exec_of_answers ⟨len, hn, rfl⟩

/-- `CAPACITY` with its operand driven (43_blockspace.md R70). -/
theorem exec_capacity {s : State} {bs : Nat} (hn : s.n = some bs) : exec .capacity s =
    .next (s.setOut { Outputs.noValue with status := some 0#3, rNum := some (2 ^ bs) }) :=
  exec_of_answers ⟨bs, hn, rfl⟩

/-- Settles O22: the operand is the length, with no bound on it. -/
theorem tblockRule : Obligations.TblockRule :=
  ⟨decode_encode .tblock, fun _ _ hn => exec_tblock hn⟩

/-- Settles O24: the operand is the exponent, with no bound on it. -/
theorem capacityRule : Obligations.CapacityRule :=
  ⟨decode_encode .capacity, fun _ _ hn => exec_capacity hn⟩

/-- The two forms of the real-block count agree (43_blockspace.md R69): the real blocks hold the message and 65 bits more,
and one block less does not. -/
theorem tBlock_eq_ceil (len : Nat) : (tBlock len : Int) = ⌈((len : Rat) + 65) / 512⌉ := by
  have hfill := zeroRun_spec len
  have hlt := zeroRun_lt len
  have hmax : ((len + 65 : Nat) : Rat) ≤ (512 * tBlock len : Nat) := Nat.cast_le.mpr (by omega)
  have hmin : ((512 * tBlock len : Nat) : Rat) < (len + 65 + 512 : Nat) := Nat.cast_lt.mpr (by omega)
  push_cast at hmax hmin
  rw [eq_comm, Int.ceil_eq_iff, Int.cast_natCast]
  constructor <;> linarith

/-- Settles O23: `PAD` gives the padded sequence, which fills the real blocks that `SEGMENT` cuts it into. -/
theorem tblockMatchesPadAndSegment : Obligations.TblockMatchesPadAndSegment := by
  intro s s' len hn
  refine ⟨tBlock len, exec_tblock hn, tBlock_eq_ceil len, fun a t ha hl h hpad hbits hm => ?_⟩
  rw [exec_pad_of_accepted ha hn hl h] at hpad
  cases hpad
  exact ⟨chunks 512 (tBlock len) (padded a len),
    exec_of_answers ⟨padded a len, 512, hbits, hm, (segmentOutputs_padded h).symm⟩, chunks_length _ _ _⟩

/-! ### `MAXLEN` -/

/-- The largest length leaves 65 bits of its capacity (90_conflicts.md C1). -/
theorem maxLen_add {k : Nat} (hk : 1 ≤ k) : maxLen k + 65 = 512 * k := by
  unfold maxLen; omega

/-- `MAXLEN` of a capacity that exists (43_blockspace.md R72). -/
theorem exec_maxlen_of_pos {s : State} {k : Nat} (hn : s.n = some k) (hk : 1 ≤ k) : exec .maxlen s =
    .next (s.setOut { Outputs.noValue with status := some 0#3, rNum := some (maxLen k) }) :=
  exec_of_answers ⟨k, hn, (if_neg (by omega)).symm⟩

/-- Settles O25: the error at capacity 0, and `maxLen` otherwise. -/
theorem maxlenRule : Obligations.MaxlenRule := by
  refine ⟨decode_encode .maxlen, fun s k hn => ⟨fun hk => ?_, fun hk => ?_⟩⟩
  · subst hk
    exact exec_of_answers ⟨0, hn, rfl⟩
  · exact ⟨maxLen k, exec_maxlen_of_pos hn hk, maxLen_add hk⟩

/-! ### What fits a capacity -/

/-- The fit criterion (43_blockspace.md R73). -/
theorem tBlock_le_iff_le_maxLen {len c : Nat} (hc : 1 ≤ c) : tBlock len ≤ c ↔ len ≤ maxLen c := by
  have hmax := maxLen_add hc
  rw [tBlock_le_iff]
  omega

/-- The largest length fills its capacity. -/
theorem tBlock_maxLen {c : Nat} (hc : 1 ≤ c) : tBlock (maxLen c) = c := by
  have hmax := maxLen_add hc
  unfold tBlock
  omega

/-- One bit more than the largest length needs one block more. -/
theorem tBlock_maxLen_succ {c : Nat} (hc : 1 ≤ c) : tBlock (maxLen c + 1) = c + 1 := by
  have hmax := maxLen_add hc
  unfold tBlock
  omega

/-- The check that `FORMAT` and `HASH` share, on a length that the capacity does not hold. -/
theorem formatError_of_excess {c : Nat} {a : Bits} {len : Nat} (hl : len < 2 ^ 64) (hc : c < tBlock len) :
    formatError c a len = some (raiseCapacity len (tBlock len) c) := by
  rw [formatError, if_neg (by omega), if_pos hc]

/-- `FORMAT` on operands that it accepts (45_composite.md R80). -/
theorem formatOutputs_of_accepted {c : Nat} {a : Bits} {len : Nat} (hl : len < 2 ^ 64) (hc : tBlock len ≤ c)
    (h : len ≤ a.length) : formatOutputs c a len =
      { Outputs.success with rBlocks := some (formatBlocks c a len), rTblock := some (tBlock len) } := by
  rcases formatOutputs_cases c a len with ⟨h1, -⟩ | ⟨-, h2, -⟩ | ⟨-, -, h3, -⟩ | ⟨-, -, -, ho⟩
  · omega
  · omega
  · omega
  · exact ho

section composite
variable {s : State} {a : Bits} {len : Nat} {i : Instr} (hi : i = .format ∨ i = .hash) (ha : s.aBits = some a)
  (hn : s.n = some len) (hl : len < 2 ^ 64)
include hi ha hn hl

/-- `FORMAT` and `HASH` succeed on a buffer long enough whose length fits, and report the real-block count. -/
theorem exec_composite_of_fits (hc : tBlock len ≤ s.inst.capacity) (h : len ≤ a.length) :
    ∃ t, exec i s = .next t ∧ t.out.status = some 0#3 ∧ t.out.rTblock = some (tBlock len) := by
  rcases hi with rfl | rfl
  · exact ⟨_, exec_of_answers ⟨a, len, ha, hn, (formatOutputs_of_accepted hl hc h).symm⟩, rfl, rfl⟩
  · exact ⟨_, exec_of_answers ⟨a, len, ha, hn, (hashOutputs_of_accepted hl hc h).symm⟩, rfl, rfl⟩

/-- `FORMAT` and `HASH` raise `CapacityExceededError` on a length that does not fit, and report the count it needs. -/
theorem exec_composite_of_excess (hc : s.inst.capacity < tBlock len) :
    ∃ t, exec i s = .next t ∧ t.out.status = some 2#3 ∧ t.out.errReq = some (tBlock len) := by
  have herr := formatError_of_excess (a := a) hl hc
  refine ⟨s.setOut (raiseCapacity len (tBlock len) s.inst.capacity), exec_of_answers ?_, rfl, rfl⟩
  rcases hi with rfl | rfl
  · exact ⟨a, len, ha, hn, by rw [formatOutputs, herr]⟩
  · exact ⟨a, len, ha, hn, by rw [hashOutputs, herr]⟩

end composite

/-- Settles O26: `MAXLEN` answers `maxLen C`, and the fit criterion says which lengths are at most that. -/
theorem maxlenIsExactFitBound : Obligations.MaxlenIsExactFitBound := by
  intro s s' a len v hn' hv ha hn hl h i hi
  have hpos := s.inst.capacity_pos
  have hfit := tBlock_le_iff_le_maxLen (len := len) hpos
  obtain rfl : maxLen s.inst.capacity = v := by
    rw [exec_maxlen_of_pos hn' hpos, Host.Outcome.next.injEq] at hv
    exact Option.some.inj (congrArg (fun t : State => t.out.rNum) hv)
  refine ⟨fun hle => ?_, fun hlt => ?_⟩
  · obtain ⟨t, ht, hstatus, htb⟩ := exec_composite_of_fits hi ha hn hl (hfit.mpr hle) h
    exact ⟨t, ht, hstatus, fun heq => by rw [htb, heq, tBlock_maxLen hpos]⟩
  · obtain ⟨t, ht, hstatus, hreq⟩ := exec_composite_of_excess hi ha hn hl (by omega)
    exact ⟨t, ht, hstatus, fun heq => by rw [hreq, heq, tBlock_maxLen_succ hpos]⟩

/-- Settles O27: `64 * C - 9` bytes are the most whole bytes in `maxLen C` bits, and `64 * C - 8` bytes are one bit more. -/
theorem byteMessageBound : Obligations.ByteMessageBound := by
  intro s a n ha hn hl h
  have hpos := s.inst.capacity_pos
  have hmax := maxLen_add hpos
  have hfit := tBlock_le_iff_le_maxLen (len := 8 * n) hpos
  rcases Nat.lt_or_ge s.inst.capacity (tBlock (8 * n)) with hc | hc
  · obtain ⟨t, ht, hstatus, hreq⟩ := exec_composite_of_excess (.inl rfl) ha hn hl hc
    refine ⟨t, ht, iff_of_false (by rw [hstatus]; decide) (by omega), fun hn8 => ⟨hstatus, ?_⟩⟩
    rw [hreq, show 8 * n = maxLen s.inst.capacity + 1 by omega, tBlock_maxLen_succ hpos]
  · obtain ⟨t, ht, hstatus, -⟩ := exec_composite_of_fits (.inl rfl) ha hn hl hc h
    exact ⟨t, ht, iff_of_true hstatus (by omega), fun hn8 => by omega⟩

/-! ### The capacity of a build -/

/-- The bus holds `512*C` bits: an unbounded one always, a finite one by its width (10_state.md R10, D14). -/
theorem busHolds_eq_true_iff (c : Nat) (o : Option Nat) : busHolds c o = true ↔ ∀ k, o = some k → 512 * c ≤ k := by
  cases o <;> simp [busHolds]

/-- A bus that does not hold `512*C` bits is a finite one that is narrower. -/
theorem busHolds_eq_false_iff (c : Nat) (o : Option Nat) :
    busHolds c o = false ↔ ∃ k, o = some k ∧ k < 512 * c := by
  cases o <;> simp [busHolds]

section build
variable (b : Build)

/-- A build succeeds exactly when the capacity is at least 1 and the bus holds it. -/
theorem elaborate_ok_iff : (∃ p, elaborate b = .ok p) ↔
    1 ≤ requestedCapacity b.capacity ∧ busHolds (requestedCapacity b.capacity) b.busBits = true := by
  rcases elaborate_cases b with ⟨h0, he⟩ | ⟨-, hbus, he⟩ | ⟨p, he, hbus, hcap, -⟩
  · exact iff_of_false (by simp [he]) fun h => by omega
  · exact iff_of_false (by simp [he]) fun h => by simp [hbus] at h
  · exact iff_of_true ⟨p, he⟩ ⟨hcap ▸ p.capacity_pos, hbus⟩

/-- A build is refused for its capacity exactly when that is 0. -/
theorem elaborate_noCapacity_iff : elaborate b = .error .noCapacity ↔ requestedCapacity b.capacity = 0 := by
  rcases elaborate_cases b with ⟨h0, he⟩ | ⟨h1, -, he⟩ | ⟨p, he, -, hcap, -⟩
  · exact iff_of_true he h0
  · exact iff_of_false (by simp [he]) (by omega)
  · exact iff_of_false (by simp [he]) (by have := p.capacity_pos; omega)

/-- A build is refused for its bus exactly when that does not hold the capacity; one of capacity 0 is held by any. -/
theorem elaborate_busTooNarrow_iff :
    elaborate b = .error .busTooNarrow ↔ busHolds (requestedCapacity b.capacity) b.busBits = false := by
  rcases elaborate_cases b with ⟨h0, he⟩ | ⟨-, hbus, he⟩ | ⟨p, he, hbus, -⟩
  · exact iff_of_false (by simp [he]) (by simp [busHolds_eq_false_iff, h0])
  · exact iff_of_true he hbus
  · exact iff_of_false (by simp [he]) (by simp [hbus])

end build

/-- A build that succeeds gives what was asked for. -/
theorem elaborate_ok {b : Build} {p : Instance} (h : elaborate b = .ok p) :
    p.capacity = requestedCapacity b.capacity ∧ p.iv = b.iv ∧ p.compress = b.compress ∧ p.lenWidth = b.lenWidth ∧
      p.busBits = b.busBits := by
  rcases elaborate_cases b with ⟨-, he⟩ | ⟨-, -, he⟩ | ⟨q, he, -, hasked⟩ <;> rw [h] at he <;> cases he
  exact hasked

/-- Settles O9: when a build succeeds, its two refusals, and what it gives; `CAPACITY` computes `2 ^ BS` as the
build does. -/
theorem instanceHasRequestedCapacity : Obligations.InstanceHasRequestedCapacity := by
  refine ⟨fun _ => rfl, fun _ => rfl, fun b => ⟨?_, elaborate_noCapacity_iff b, ?_, fun p hp => ?_⟩⟩
  · rw [elaborate_ok_iff, busHolds_eq_true_iff]
  · rw [elaborate_busTooNarrow_iff, busHolds_eq_false_iff]
  · obtain ⟨hcap, hiv, hcompress, hlen, hbus⟩ := elaborate_ok hp
    refine ⟨hcap, p.capacity_pos, hiv, hcompress, hlen, hbus, fun bs s hbs hn => ?_⟩
    rw [exec_capacity hn, hcap, hbs]
    rfl

end Sys2Proof.Machine
end

section
/-! SUPPORT. The statements of 44_digest.md: the chaining values, `DIGEST` by cases, its fixed shape, and that it reads the
first `t` blocks alone. -/

namespace Sys2Proof.Machine

/-! ### The chaining values -/

/-- A step of the chain, read as a fold: the first `i + 1` blocks are the first `i` and block `i` (44_digest.md R76). -/
theorem chainValues_succ {f : Word256 → Bits → Word256} {h : Word256} {b : Blocks} {i : Nat} {x : Bits}
    (hx : b[i]? = some x) : (chainValues f h b)[i + 1]? = some (f ((b.take i).foldl f h) x) := by
  obtain ⟨hi, -⟩ := List.getElem?_eq_some_iff.mp hx
  rw [chainValues_getElem? f h b (i + 1) hi, List.take_add_one, hx, Option.toList_some, List.foldl_append]
  rfl

/-- Settles O28: value `i` of the chain is the fold over the first `i` blocks. -/
theorem chainingValuesFollowCompress : Obligations.ChainingValuesFollowCompress := by
  refine fun p b => ⟨_, rfl, chainValues_length _ _ _, chainValues_getElem? _ _ b 0 (Nat.zero_le _), fun i x hx => ?_⟩
  obtain ⟨hi, -⟩ := List.getElem?_eq_some_iff.mp hx
  exact ⟨_, chainValues_getElem? _ _ b i hi.le, chainValues_succ hx⟩

/-! ### `DIGEST` -/

/-- `DIGEST` on blocks the first wrong one of which is block `i`; this check comes first (44_digest.md R78). -/
theorem digestOutputs_of_wrongWidth {p : Instance} {b : Blocks} {t i : Nat} {x : Bits} (hx : b[i]? = some x)
    (hne : x.length ≠ 512) (hbefore : ∀ y ∈ b.take i, y.length = 512) :
    digestOutputs p b t = raisePrecondition x.length 512 i := by
  have hfirst : wrongWidth 512 0 b = some (i, x.length) :=
    (wrongWidth_eq_some b 0 i x.length).mpr ⟨i, x, (Nat.zero_add i).symm, hx, rfl, hne, hbefore⟩
  simp only [digestOutputs, hfirst]

section width
variable {p : Instance} {b : Blocks} {t : Nat} (hall : ∀ x ∈ b, x.length = 512)
include hall

/-- `DIGEST` on blocks of the right width: the check of the selector remains. -/
theorem digestOutputs_of_width : digestOutputs p b t =
    if t < 1 ∨ t > b.length then raisePrecondition t 1 b.length
    else { Outputs.success with rDigest := some (digestBits (selectedValue p b t)) } := by
  simp only [digestOutputs, (wrongWidth_eq_none b 0).mpr hall]

/-- `DIGEST` with a selector that names no block (44_digest.md R78). -/
theorem digestOutputs_of_outside (ht : t < 1 ∨ b.length < t) : digestOutputs p b t = raisePrecondition t 1 b.length := by
  rw [digestOutputs_of_width hall, if_pos ht]

/-- `DIGEST` on operands that it accepts (44_digest.md R78). -/
theorem digestOutputs_of_accepted (h1 : 1 ≤ t) (ht : t ≤ b.length) :
    digestOutputs p b t = { Outputs.success with rDigest := some (digestBits (selectedValue p b t)) } := by
  rw [digestOutputs_of_width hall, if_neg (by omega)]

end width

/-- `DIGEST` on a state that drives its two ports. -/
theorem exec_digest {s : State} {b : Blocks} {t : Nat} (hb : s.aBlocks = some b) (hn : s.n = some t) :
    exec .digest s = .next (s.setOut (digestOutputs s.inst b t)) := exec_of_answers ⟨b, t, hb, hn, rfl⟩

/-- Settles O29: the two errors in their order, or the selected value, which is the fold over the first `t` blocks. -/
theorem digestRule : Obligations.DigestRule := by
  refine ⟨decode_encode .digest, fun s b t hb hn => ?_⟩
  rw [exec_digest hb hn]
  refine ⟨fun i x hx hne hbefore => ?_, fun hall ht => ?_, fun hall h1 ht => ?_⟩
  · rw [digestOutputs_of_wrongWidth hx hne hbefore]
    rfl
  · rw [digestOutputs_of_outside hall ht]
    rfl
  · rw [digestOutputs_of_accepted hall h1 ht, selectedValue_eq ht]
    rfl

/-! ### The fixed shape -/

/-- Settles O31: the multiplexer over the chaining values outputs the bits of the selected one, which `DIGEST` writes. -/
theorem digestIsFixedShapeMultiplexer : Obligations.DigestIsFixedShapeMultiplexer := by
  intro s b t hb hn hall h1 ht
  have hmux := muxBits_chainValues s.inst h1 ht
  refine ⟨_, selectedValue s.inst b t, rfl, ?_, fun q hq => ?_, ?_⟩
  · rw [chainValues_getElem? _ _ b t ht, selectedValue_eq ht]
  · rw [← hmux, muxBits, List.getElem?_map, List.getElem?_range hq, Option.map_some]
  · rw [exec_digest hb hn, digestOutputs_of_accepted hall h1 ht, hmux]
    rfl

/-! ### The filler blocks -/

/-- The selected value depends on the first `t` blocks, `IV` and `Compress` alone (44_digest.md R79). -/
theorem selectedValue_congr {p p' : Instance} {b b' : Blocks} {t : Nat} (hiv : p'.iv = p.iv)
    (hcompress : p'.compress = p.compress) (ht : t ≤ b.length) (ht' : t ≤ b'.length) (htake : b.take t = b'.take t) :
    selectedValue p' b' t = selectedValue p b t := by
  rw [selectedValue_eq ht, selectedValue_eq ht', hiv, hcompress, htake]

/-- Settles O32: both presentations are accepted, and select the same value. -/
theorem digestIgnoresFillerBlocks : Obligations.DigestIgnoresFillerBlocks := by
  intro s s' b b' t hb hb' hn hn' hiv hcompress hall hall' h1 ht ht' htake
  have hsame : digestOutputs s'.inst b' t = digestOutputs s.inst b t := by
    rw [digestOutputs_of_accepted hall h1 ht, digestOutputs_of_accepted hall' h1 ht',
      selectedValue_congr hiv hcompress ht ht' htake]
  refine ⟨digestOutputs s.inst b t, exec_digest hb hn, hsame ▸ exec_digest hb' hn', ?_⟩
  rw [digestOutputs_of_accepted hall h1 ht]
  rfl

end Sys2Proof.Machine
end

section
/-! SUPPORT. The statements of 45_composite.md: `FORMAT` by cases and bit by bit, `FORMAT` as `PAD`, `SEGMENT` and
`FIT`, `HASH` against `FORMAT`, and the digest against the capacity and the reference. -/

namespace Sys2Proof.Machine

/-! ### The blocks of `FORMAT` -/

/-- The real blocks are the padded sequence cut into blocks of 512 bits (45_composite.md R80). -/
theorem formatBlocks_take_tBlock (c : Nat) (a : Bits) (len : Nat) :
    (formatBlocks c a len).take (tBlock len) = chunks 512 (tBlock len) (padded a len) :=
  List.take_left' (chunks_length _ _ _)

/-- The blocks are enough for the real-block count. -/
theorem tBlock_le_formatBlocks_length {c : Nat} {a : Bits} {len : Nat} (hc : tBlock len ≤ c) :
    tBlock len ≤ (formatBlocks c a len).length :=
  (formatBlocks_length hc).symm ▸ hc

/-- The stop bit is bit `L mod 512` of block `L/512` (45_composite.md R84). -/
theorem formatBlocks_stop_bit {c : Nat} {a : Bits} {len : Nat} (h : len ≤ a.length) :
    ∃ x, (formatBlocks c a len)[len / 512]? = some x ∧ x[len % 512]? = some true := by
  have hfill := zeroRun_spec len
  refine ⟨_, formatBlocks_real (i := len / 512) (by omega), ?_⟩
  rw [slice_getElem? _ (by omega), Nat.div_add_mod, padded_stop h]

/-- The last 64 bits of the last real block are the length (45_composite.md R84). -/
theorem formatBlocks_length_suffix {c : Nat} {a : Bits} {len : Nat} (h : len ≤ a.length) :
    ∃ x, (formatBlocks c a len)[tBlock len - 1]? = some x ∧
      ∀ i, i < 64 → x[448 + i]? = some (len.testBit (63 - i)) := by
  have hpos := tBlock_pos len
  refine ⟨_, formatBlocks_real (i := tBlock len - 1) (by omega), fun i hi => ?_⟩
  rw [slice_getElem? _ (by omega), padded_suffix h (by omega) (by omega)]
  congr 2
  omega

/-- The selection over five cases of R81: the four regions of the padded sequence, and zero from their end on. -/
theorem formatBit_eq_selection (a : Bits) (len q : Nat) : formatBit a len q =
    if q < len then a.getD q false
    else if q = len then true
    else if q < realEnd len - 64 then false
    else if q < realEnd len then len.testBit (realEnd len - 1 - q)
    else false := by
  by_cases hq : q < realEnd len
  · simp only [formatBit, paddedBit, bitOf_eq_testBit, if_pos hq]
  · have hend : len + 65 + zeroRun len = realEnd len := zeroRun_spec len
    rw [formatBit, if_neg hq, if_neg (by omega), if_neg (by omega), if_neg (by omega), if_neg hq]

/-- Bit `q` of the fixed-shape buffer stands at `q mod 512` of block `q/512` (45_composite.md R81). -/
theorem fixedFormatBlocks_bit {c q : Nat} (a : Bits) (len : Nat) (hq : q < 512 * c) :
    ∃ x, (fixedFormatBlocks c a len)[q / 512]? = some x ∧ x[q % 512]? = some (formatBit a len q) := by
  have hblock : q / 512 < c := by omega
  have hbit : q % 512 < 512 := by omega
  refine ⟨_, by rw [fixedFormatBlocks, List.getElem?_map, List.getElem?_range hblock, Option.map_some], ?_⟩
  rw [List.getElem?_map, List.getElem?_range hbit, Option.map_some, Nat.div_add_mod]

/-! ### `FORMAT` -/

section operands
variable {s : State} {a : Bits} {len : Nat} (ha : s.aBits = some a) (hn : s.n = some len)
include ha hn

/-- `FORMAT` with its operands driven ends with the outputs of R80. -/
theorem exec_format : exec .format s = .next (s.setOut (formatOutputs s.inst.capacity a len)) :=
  exec_of_answers ⟨a, len, ha, hn, rfl⟩

/-- `FORMAT` on operands that it accepts gives its blocks and the real-block count (45_composite.md R80). -/
theorem exec_format_of_accepted (hl : len < 2 ^ 64) (hc : tBlock len ≤ s.inst.capacity) (h : len ≤ a.length) :
    exec .format s = .next (s.setOut { Outputs.noValue with
      status := some 0#3, rBlocks := some (formatBlocks s.inst.capacity a len), rTblock := some (tBlock len) }) := by
  rw [exec_format ha hn, formatOutputs_of_accepted hl hc h]
  rfl

/-- `HASH` with its operands driven ends with the outputs of R82. -/
theorem exec_hash : exec .hash s = .next (s.setOut (hashOutputs s.inst a len)) :=
  exec_of_answers ⟨a, len, ha, hn, rfl⟩

end operands

section format
variable {c : Nat} {a : Bits} {len : Nat}

/-- `FORMAT` on a length that its suffix cannot hold; this check comes first (60_exceptions.md R94). -/
theorem formatOutputs_of_overflow (hl : 2 ^ 64 ≤ len) : formatOutputs c a len = raiseOverflow len := by
  rw [formatOutputs, formatError, if_pos hl]

/-- `FORMAT` on a length that the capacity does not hold (45_composite.md R80). -/
theorem formatOutputs_of_excess (hl : len < 2 ^ 64) (hc : c < tBlock len) :
    formatOutputs c a len = raiseCapacity len (tBlock len) c := by
  rw [formatOutputs, formatError_of_excess hl hc]

/-- `FORMAT` on a length above that of its buffer; this check comes last (45_composite.md R80). -/
theorem formatOutputs_of_short (hl : len < 2 ^ 64) (hc : tBlock len ≤ c) (h : a.length < len) :
    formatOutputs c a len = raisePrecondition len len a.length := by
  rw [formatOutputs, formatError, if_neg (by omega), if_neg (by omega), if_pos h]

end format

/-- A raised error is not `OK`. -/
theorem Outputs.raised.status_ne_ok {o : Outputs} (h : o.raised) : o.status ≠ some 0#3 := by
  obtain ⟨e, len, required, available, he, rfl⟩ := h
  exact fun hs => he (Status.code_injective (b := .ok) (Option.some.inj hs))

/-- `FORMAT` gives `OK` only on operands that it accepts. -/
theorem accepted_of_formatOutputs_ok {c : Nat} {a : Bits} {len : Nat}
    (hok : (formatOutputs c a len).status = some 0#3) : len < 2 ^ 64 ∧ tBlock len ≤ c ∧ len ≤ a.length := by
  rcases formatOutputs_cases c a len with ⟨-, ho⟩ | ⟨-, -, ho⟩ | ⟨-, -, -, ho⟩ | ⟨hl, hc, h, -⟩
  · exact absurd (ho ▸ hok) (raiseOverflow_raised len).status_ne_ok
  · exact absurd (ho ▸ hok) (raiseCapacity_raised len (tBlock len) c).status_ne_ok
  · exact absurd (ho ▸ hok) (raisePrecondition_raised len len a.length).status_ne_ok
  · exact ⟨hl, hc, h⟩

/-- A `FORMAT` that gives `OK` read operands that it accepts, and its outputs are their blocks and real-block count. -/
theorem exec_format_ok {s t : State} (ht : exec .format s = .next t) (hok : t.out.status = some 0#3) :
    ∃ a len, s.aBits = some a ∧ s.n = some len ∧ len < 2 ^ 64 ∧ tBlock len ≤ s.inst.capacity ∧ len ≤ a.length ∧
      t.out.rBlocks = some (formatBlocks s.inst.capacity a len) ∧ t.out.rTblock = some (tBlock len) := by
  obtain ⟨_, rfl, a, len, ha, hn, rfl⟩ := exec_next ht
  obtain ⟨hl, hc, h⟩ := accepted_of_formatOutputs_ok hok
  refine ⟨a, len, ha, hn, hl, hc, h, ?_⟩
  rw [State.setOut_out, formatOutputs_of_accepted hl hc h]
  exact ⟨rfl, rfl⟩

/-- Settles O33: the three errors in their order, or the blocks. -/
theorem formatRule : Obligations.FormatRule := by
  refine ⟨decode_encode .format, fun s a p len tb ha hn htb hp => ?_⟩
  obtain rfl : tb = tBlock len := htb
  obtain rfl : p = padded a len := hp.trans (padded_eq_rule a len).symm
  refine ⟨fun hl => ?_, fun hl hc => ?_, fun hl hc h => ?_, fun hl hc h => ?_⟩
  · rw [exec_format ha hn, formatOutputs_of_overflow hl]
    rfl
  · rw [exec_format ha hn, formatOutputs_of_excess hl hc]
    rfl
  · rw [exec_format ha hn, formatOutputs_of_short hl hc h]
    rfl
  · refine ⟨formatBlocks s.inst.capacity a len, exec_format_of_accepted ha hn hl hc h, formatBlocks_length hc,
      fun i hi => ?_, fun i h1 h2 => formatBlocks_filler h1 h2⟩
    rw [formatBlocks_real hi, slice, Nat.add_sub_cancel_left]

/-- Settles O34: the fixed-shape buffer is `FORMAT`'s, and its bits are the selection of R81. -/
theorem formatIsFixedShapeDatapath : Obligations.FormatIsFixedShapeDatapath := by
  intro s a len e ha hn hl hc h he
  obtain rfl : e = realEnd len := he
  refine ⟨fixedFormatBlocks s.inst.capacity a len, ?_, rfl, fun q hq => ?_⟩
  · rw [fixedFormatBlocks_eq_formatBlocks hc h]
    exact exec_format_of_accepted ha hn hl hc h
  · rw [← formatBit_eq_selection]
    exact fixedFormatBlocks_bit a len hq

/-- Settles O35: the operands were accepted, so the blocks are those of `formatBlocks`. -/
theorem formatRealAndFillerBlocks : Obligations.FormatRealAndFillerBlocks := by
  intro s t len hn ht hok
  obtain ⟨a, len', -, hn', -, hc, h, hblocks, hcount⟩ := exec_format_ok ht hok
  obtain rfl : len = len' := Option.some.inj (hn.symm.trans hn')
  exact ⟨_, _, hblocks, hcount, tBlock_pos len, hc, formatBlocks_length hc, formatBlocks_width h,
    fun i h1 h2 => formatBlocks_filler h1 h2, formatBlocks_stop_bit h, formatBlocks_length_suffix h⟩

/-! ### `FORMAT` as `PAD`, `SEGMENT` and `FIT` -/

/-- `PAD` gives `OK` only on operands that it accepts. -/
theorem accepted_of_padOutputs_ok {a : Bits} {len : Nat} (hok : (padOutputs a len).status = some 0#3) :
    len < 2 ^ 64 ∧ len ≤ a.length := by
  rcases padOutputs_cases a len with ⟨-, ho⟩ | ⟨-, -, ho⟩ | ⟨hl, h, -⟩
  · exact absurd (ho ▸ hok) (raiseOverflow_raised len).status_ne_ok
  · exact absurd (ho ▸ hok) (raisePrecondition_raised len len a.length).status_ne_ok
  · exact ⟨hl, h⟩

/-- `FIT` on the chunks of the padded sequence gives the blocks of `FORMAT`, or the capacity error with the counts of
`FORMAT`'s (45_composite.md R80). -/
theorem fitOutputs_padded {c : Nat} {a : Bits} {len : Nat} (h : len ≤ a.length) :
    fitOutputs c (chunks 512 (tBlock len) (padded a len)) 512 =
      if tBlock len > c then raiseCapacity (tBlock len) (tBlock len) c
      else { Outputs.success with rBlocks := some (formatBlocks c a len) } := by
  have hwidth := chunks_width (padded_length_of_le h).ge
  rw [fitOutputs_of_width (by decide) hwidth, fillTo, chunks_length, formatBlocks]

/-- Settles O36: the three operations give the padded sequence, its chunks, and what `FIT` makes of them, by whether the
capacity holds the real blocks. -/
theorem formatIsPadSegmentFit : Obligations.FormatIsPadSegmentFit := by
  intro s s2 s3 t1 t2 t3 len a hn ha hpad hok hbits hm hsegment hinst hblocks hm' hfit
  rw [exec_pad ha hn] at hpad
  cases hpad
  obtain ⟨hl, h⟩ := accepted_of_padOutputs_ok hok
  rw [State.setOut_out, padOutputs_of_accepted hl h] at hbits
  rw [exec_of_answers (i := .segment) ⟨_, _, hbits, hm, (segmentOutputs_padded h).symm⟩] at hsegment
  cases hsegment
  rw [exec_of_answers (i := .fit) ⟨_, _, hblocks, hm', rfl⟩, hinst, fitOutputs_padded h] at hfit
  cases hfit
  refine ⟨rfl, ?_⟩
  rcases Nat.lt_or_ge s.inst.capacity (tBlock len) with hc | hc
  · rw [State.setOut_out, if_pos hc]
    refine ⟨fun hfits => absurd hfits (raiseCapacity_raised _ _ _).status_ne_ok,
      fun _ => ⟨_, exec_format ha hn, rfl, ?_⟩⟩
    rw [State.setOut_out, formatOutputs_of_excess hl hc]
    exact ⟨rfl, rfl, rfl⟩
  · rw [State.setOut_out, if_neg (by omega)]
    exact ⟨fun _ => exec_format_of_accepted ha hn hl hc h, fun hne => absurd rfl hne⟩

/-! ### `HASH` -/

/-- `HASH` raises the errors of `FORMAT`, by the check that they share (45_composite.md R82). -/
theorem hashOutputs_of_format_error {p : Instance} {a : Bits} {len : Nat}
    (hne : (formatOutputs p.capacity a len).status ≠ some 0#3) :
    hashOutputs p a len = formatOutputs p.capacity a len := by
  cases he : formatError p.capacity a len with
  | some e => simp only [hashOutputs, formatOutputs, he]
  | none => exact absurd (by simp only [formatOutputs, he, Outputs.success_status]) hne

/-- The value that `HASH` selects is the fold over the real blocks, whatever fillers stand behind them
(44_digest.md R79). -/
theorem selectedValue_formatBlocks {p : Instance} {c : Nat} {a : Bits} {len : Nat} (hc : tBlock len ≤ c) :
    selectedValue p (formatBlocks c a len) (tBlock len) =
      (chunks 512 (tBlock len) (padded a len)).foldl (applyCompressor p.compress) p.iv := by
  rw [selectedValue_eq (tBlock_le_formatBlocks_length hc), formatBlocks_take_tBlock]

/-- Settles O37: the errors are shared; otherwise the selected value is the fold over `FORMAT`'s real blocks. -/
theorem hashRule : Obligations.HashRule := by
  refine ⟨decode_encode .hash, fun s a len ha hn => ⟨_, exec_format ha hn, fun hne => ?_, fun hok => ?_⟩⟩
  · rw [exec_hash ha hn, hashOutputs_of_format_error hne]
  · obtain ⟨hl, hc, h⟩ := accepted_of_formatOutputs_ok hok
    rw [formatOutputs_of_accepted hl hc h]
    refine ⟨formatBlocks s.inst.capacity a len, tBlock len, rfl, rfl, ?_⟩
    rw [exec_hash ha hn, hashOutputs_of_accepted hl hc h, selectedValue_eq (tBlock_le_formatBlocks_length hc)]
    rfl

/-- Settles O38: `DIGEST` accepts `FORMAT`'s blocks and count, and selects the value that `HASH` does. -/
theorem hashIsFormatThenDigest : Obligations.HashIsFormatThenDigest := by
  intro s t s' ht hok hinst hblocks hcount
  obtain ⟨a, len, ha, hn, hl, hc, h, htblocks, htcount⟩ := exec_format_ok ht hok
  have hdigest := exec_digest (hblocks.trans htblocks) (hcount.trans htcount)
  rw [hinst, digestOutputs_of_accepted (formatBlocks_width h) (tBlock_pos len)
    (tBlock_le_formatBlocks_length hc)] at hdigest
  have hhash := exec_hash ha hn
  rw [hashOutputs_of_accepted hl hc h] at hhash
  exact ⟨_, _, hdigest, hhash, rfl, rfl, rfl, rfl, htcount.symm⟩

/-- Settles O40: on both instances the digest is the fold over the same real blocks. -/
theorem hashDoesNotDependOnCapacity : Obligations.HashDoesNotDependOnCapacity := by
  intro s s' a len ha ha' hn hn' hiv hcompress hl h hc hc'
  have hsame : hashOutputs s'.inst a len = hashOutputs s.inst a len := by
    rw [hashOutputs_of_accepted hl hc h, hashOutputs_of_accepted hl hc' h, selectedValue_formatBlocks hc,
      selectedValue_formatBlocks hc', hiv, hcompress]
  refine ⟨hashOutputs s.inst a len, exec_hash ha hn, hsame ▸ exec_hash ha' hn', ?_⟩
  rw [hashOutputs_of_accepted hl hc h]
  rfl

/-- Settles O41: the digest's bits are those of the reference digest's bytes, which `BITS_TO_BYTES` gives back. -/
theorem hashEqualsReferenceSha256 : Obligations.HashEqualsReferenceSha256 := by
  intro s m hiv hcompress ha hn hl hc
  refine ⟨bytesToBits (referenceSha256 m), ?_, fun s' hs' =>
    exec_of_answers ⟨_, hs', (bitsToBytesOutputs_bytesToBits (referenceSha256 m)).symm⟩⟩
  rw [exec_hash ha hn, hashOutputs_bytesToBits hiv hcompress hl hc]
  rfl

end Sys2Proof.Machine
end

section
/-! SUPPORT. The statements of 60_exceptions.md: the cause of each error with its context, which operation reports which
status, and that an error leaves no result. -/

namespace Sys2Proof.Machine

/-! ### `FORMAT` and `HASH`, up to the error they share -/

/-- `FORMAT` and `HASH` end in the error of the check that they share, or in `OK` (45_composite.md R80, R82). -/
theorem answers_composite {i : Instr} {s : State} {o : Outputs} (hi : i = .format ∨ i = .hash) (h : answers i s o) :
    ∃ a len, s.aBits = some a ∧ s.n = some len ∧
      (formatError s.inst.capacity a len = some o ∨
        (formatError s.inst.capacity a len = none ∧ o.status = some Status.ok.code)) := by
  rcases hi with rfl | rfl <;> obtain ⟨a, len, ha, hn, rfl⟩ := h <;> refine ⟨a, len, ha, hn, ?_⟩
  · unfold formatOutputs
    cases formatError s.inst.capacity a len with
    | some e => exact .inl rfl
    | none => exact .inr ⟨rfl, rfl⟩
  · unfold hashOutputs
    cases formatError s.inst.capacity a len with
    | some e => exact .inl rfl
    | none => exact .inr ⟨rfl, rfl⟩

/-- Where the check that `FORMAT` and `HASH` share finds an error, they end in it. -/
theorem composite_eq_of_formatError {i : Instr} {s : State} {o e : Outputs} {len : Nat} (hi : i = .format ∨ i = .hash)
    (hn : s.n = some len) (he : ∀ a, s.aBits = some a → formatError s.inst.capacity a len = some e)
    (h : answers i s o) : o = e := by
  obtain ⟨a, len', ha, hn', ho⟩ := answers_composite hi h
  cases hn.symm.trans hn'
  rcases ho with ho | ⟨ho, -⟩ <;> cases ho.symm.trans (he a ha)
  rfl

/-- The check that `FORMAT` and `HASH` share, on a length that the suffix cannot hold; it comes first
(60_exceptions.md R94). -/
theorem formatError_of_overflow {c : Nat} {a : Bits} {len : Nat} (hl : 2 ^ 64 ≤ len) :
    formatError c a len = some (raiseOverflow len) :=
  if_pos hl

/-- The check that `FORMAT` and `HASH` share, on a length above that of the buffer; it comes last
(60_exceptions.md R94). -/
theorem formatError_of_short {c : Nat} {a : Bits} {len : Nat} (hl : len < 2 ^ 64) (hc : tBlock len ≤ c)
    (h : a.length < len) : formatError c a len = some (raisePrecondition len len a.length) := by
  rw [formatError, if_neg (by omega), if_neg (by omega), if_pos h]

/-! ### The causes of the errors -/

/-- The causes of 60_exceptions.md R88, R89, R90 and R92, each after the checks that R94 puts before it: operation `i`, on
the operands that `s` presents, raises the error `e` with the context `ERR_LEN`, `ERR_REQ`, `ERR_AVAIL`.
`answers_eq_raise_iff` ties it to the model. -/
inductive Raises (s : State) : Instr → Status → Option Nat → Option Nat → Option Nat → Prop
  | misalignedBytes {a : Bits} (ha : s.aBits = some a) (hmod : a.length % 8 ≠ 0) :
      Raises s .bitsToBytes .alignment (some a.length) (some 8) none
  | misalignedSegment {a : Bits} {w : Nat} (ha : s.aBits = some a) (hm : s.m = some w) (hw : 1 ≤ w)
      (hmod : a.length % w ≠ 0) : Raises s .segment .alignment (some a.length) (some w) none
  | excessBlocks {b : Blocks} {w : Nat} (hb : s.aBlocks = some b) (hm : s.m = some w) (hw : 1 ≤ w)
      (hall : ∀ x ∈ b, x.length = w) (hc : s.inst.capacity < b.length) :
      Raises s .fit .capacityExceeded (some b.length) (some b.length) (some s.inst.capacity)
  | excessLength {i : Instr} {len : Nat} (hi : i = .format ∨ i = .hash) (hn : s.n = some len) (hl : len < 2 ^ 64)
      (hc : s.inst.capacity < tBlock len) :
      Raises s i .capacityExceeded (some len) (some (tBlock len)) (some s.inst.capacity)
  | overflow {i : Instr} {len : Nat} (hi : i = .pad ∨ i = .format ∨ i = .hash) (hn : s.n = some len)
      (hl : 2 ^ 64 ≤ len) : Raises s i .lengthOverflow (some len) none none
  | shortBuffer {i : Instr} {a : Bits} {len : Nat} (ha : s.aBits = some a) (hn : s.n = some len) (hl : len < 2 ^ 64)
      (h : a.length < len) (hi : i = .pad ∨ (i = .format ∨ i = .hash) ∧ tBlock len ≤ s.inst.capacity) :
      Raises s i .precondition (some len) (some len) (some a.length)
  | zeroWidthSegment {a : Bits} (hm : s.m = some 0) (ha : s.aBits = some a) :
      Raises s .segment .precondition (some a.length) (some 1) (some 0)
  | zeroWidthFit (hm : s.m = some 0) : Raises s .fit .precondition (some 0) (some 1) (some 0)
  | wrongWidth {i : Instr} {b : Blocks} {k w : Nat} {x : Bits} (hb : s.aBlocks = some b) (hx : b[k]? = some x)
      (hne : x.length ≠ w) (hbefore : ∀ y ∈ b.take k, y.length = w)
      (hi : (i = .fit ∧ s.m = some w ∧ 1 ≤ w) ∨ (i = .digest ∧ w = 512)) :
      Raises s i .precondition (some x.length) (some w) (some k)
  | selectorOutside {b : Blocks} {t : Nat} (hb : s.aBlocks = some b) (hall : ∀ y ∈ b, y.length = 512)
      (hn : s.n = some t) (ht : t < 1 ∨ b.length < t) :
      Raises s .digest .precondition (some t) (some 1) (some b.length)
  | zeroCapacity (hn : s.n = some 0) : Raises s .maxlen .precondition (some 0) (some 1) (some 0)

/-- The outputs are those of an error that has a cause. -/
def Outputs.caused (i : Instr) (s : State) (o : Outputs) : Prop :=
  ∃ e l r v, Raises s i e l r v ∧ o = raise e l r v

/-- An operation whose operands have a cause ends in its error, with its context. -/
theorem Raises.answers_eq {i : Instr} {s : State} {e : Status} {l r v : Option Nat} {o : Outputs}
    (hr : Raises s i e l r v) (h : answers i s o) : o = raise e l r v := by
  cases hr with
  | misalignedBytes ha hmod =>
    obtain ⟨a, ha', rfl⟩ := h
    cases ha.symm.trans ha'
    exact bitsToBytesOutputs_of_misaligned hmod
  | misalignedSegment ha hm hw hmod =>
    obtain ⟨a, w, ha', hm', rfl⟩ := h
    cases ha.symm.trans ha'
    cases hm.symm.trans hm'
    exact segmentOutputs_of_misaligned hw hmod
  | excessBlocks hb hm hw hall hc =>
    obtain ⟨b, w, hb', hm', rfl⟩ := h
    cases hb.symm.trans hb'
    cases hm.symm.trans hm'
    exact fitOutputs_of_excess hw hall hc
  | excessLength hi hn hl hc =>
    exact composite_eq_of_formatError hi hn (fun _ _ => formatError_of_excess hl hc) h
  | overflow hi hn hl =>
    rcases hi with rfl | hi
    · obtain ⟨a, len, -, hn', rfl⟩ := h
      cases hn.symm.trans hn'
      exact padOutputs_of_overflow hl
    · exact composite_eq_of_formatError hi hn (fun _ _ => formatError_of_overflow hl) h
  | shortBuffer ha hn hl hshort hi =>
    rcases hi with rfl | ⟨hi, hc⟩
    · obtain ⟨a, len, ha', hn', rfl⟩ := h
      cases ha.symm.trans ha'
      cases hn.symm.trans hn'
      exact padOutputs_of_short hl hshort
    · refine composite_eq_of_formatError hi hn (fun a ha' => ?_) h
      cases ha.symm.trans ha'
      exact formatError_of_short hl hc hshort
  | zeroWidthSegment hm ha =>
    obtain ⟨a, w, ha', hm', rfl⟩ := h
    cases ha.symm.trans ha'
    cases hm.symm.trans hm'
    exact segmentOutputs_zero_width _
  | zeroWidthFit hm =>
    obtain ⟨b, w, -, hm', rfl⟩ := h
    cases hm.symm.trans hm'
    exact fitOutputs_zero_width _ b
  | wrongWidth hb hx hne hbefore hi =>
    rcases hi with ⟨rfl, hm, hw⟩ | ⟨rfl, rfl⟩
    · obtain ⟨b, w, hb', hm', rfl⟩ := h
      cases hb.symm.trans hb'
      cases hm.symm.trans hm'
      exact fitOutputs_of_wrongWidth hw hx hne hbefore
    · obtain ⟨b, t, hb', -, rfl⟩ := h
      cases hb.symm.trans hb'
      exact digestOutputs_of_wrongWidth hx hne hbefore
  | selectorOutside hb hall hn ht =>
    obtain ⟨b, t, hb', hn', rfl⟩ := h
    cases hb.symm.trans hb'
    cases hn.symm.trans hn'
    exact digestOutputs_of_outside hall ht
  | zeroCapacity hn =>
    obtain ⟨k, hn', rfl⟩ := h
    cases hn.symm.trans hn'
    rfl

/-- The error that `FORMAT` and `HASH` share has a cause. -/
theorem caused_of_formatError {i : Instr} {s : State} {a : Bits} {len : Nat} {o : Outputs} (hi : i = .format ∨ i = .hash)
    (ha : s.aBits = some a) (hn : s.n = some len) (he : formatError s.inst.capacity a len = some o) : o.caused i s := by
  rcases formatError_cases s.inst.capacity a len with ⟨hl, h⟩ | ⟨hl, hc, h⟩ | ⟨hl, hc, hs, h⟩ | ⟨-, -, -, h⟩ <;>
    cases he.symm.trans h
  · exact ⟨_, _, _, _, .overflow (.inr hi) hn hl, rfl⟩
  · exact ⟨_, _, _, _, .excessLength hi hn hl hc, rfl⟩
  · exact ⟨_, _, _, _, .shortBuffer ha hn hl hs (.inr ⟨hi, hc⟩), rfl⟩

/-- `FORMAT` and `HASH` end in an error that has a cause, or in `OK`. -/
theorem composite_caused_or_ok {i : Instr} {s : State} {o : Outputs} (hi : i = .format ∨ i = .hash)
    (h : answers i s o) : o.caused i s ∨ o.status = some Status.ok.code := by
  obtain ⟨a, len, ha, hn, he | ⟨-, hok⟩⟩ := answers_composite hi h
  · exact .inl (caused_of_formatError hi ha hn he)
  · exact .inr hok

/-- An operation that completes ends in an error that has a cause, or in `OK`. -/
theorem answers_caused_or_ok {i : Instr} {s : State} {o : Outputs} (h : answers i s o) :
    o.caused i s ∨ o.status = some Status.ok.code := by
  cases i with
  | bytesToBits =>
    obtain ⟨b, -, rfl⟩ := h
    exact .inr rfl
  | bitsToBytes =>
    obtain ⟨a, ha, rfl⟩ := h
    rcases bitsToBytesOutputs_cases a with ⟨hmod, h⟩ | ⟨-, h⟩ <;> rw [h]
    · exact .inl ⟨_, _, _, _, .misalignedBytes ha hmod, rfl⟩
    · exact .inr rfl
  | pad =>
    obtain ⟨a, len, ha, hn, rfl⟩ := h
    rcases padOutputs_cases a len with ⟨hl, h⟩ | ⟨hl, hs, h⟩ | ⟨-, -, h⟩ <;> rw [h]
    · exact .inl ⟨_, _, _, _, .overflow (.inl rfl) hn hl, rfl⟩
    · exact .inl ⟨_, _, _, _, .shortBuffer ha hn hl hs (.inl rfl), rfl⟩
    · exact .inr rfl
  | segment =>
    obtain ⟨a, w, ha, hm, rfl⟩ := h
    rcases segmentOutputs_cases a w with ⟨rfl, h⟩ | ⟨hw, hmod, h⟩ | ⟨-, -, h⟩ <;> rw [h]
    · exact .inl ⟨_, _, _, _, .zeroWidthSegment hm ha, rfl⟩
    · exact .inl ⟨_, _, _, _, .misalignedSegment ha hm hw hmod, rfl⟩
    · exact .inr rfl
  | fit =>
    obtain ⟨b, w, hb, hm, rfl⟩ := h
    rcases fitOutputs_cases s.inst.capacity b w with
      ⟨rfl, h⟩ | ⟨hw, k, x, hx, hne, hbefore, h⟩ | ⟨hw, hall, hc, h⟩ | ⟨-, -, -, h⟩ <;> rw [h]
    · exact .inl ⟨_, _, _, _, .zeroWidthFit hm, rfl⟩
    · exact .inl ⟨_, _, _, _, .wrongWidth hb hx hne hbefore (.inl ⟨rfl, hm, hw⟩), rfl⟩
    · exact .inl ⟨_, _, _, _, .excessBlocks hb hm hw hall hc, rfl⟩
    · exact .inr rfl
  | tblock =>
    obtain ⟨len, -, rfl⟩ := h
    exact .inr rfl
  | capacity =>
    obtain ⟨bs, -, rfl⟩ := h
    exact .inr rfl
  | maxlen =>
    obtain ⟨k, hn, rfl⟩ := h
    rcases maxlenOutputs_cases k with ⟨rfl, h⟩ | ⟨-, h⟩ <;> rw [h]
    · exact .inl ⟨_, _, _, _, .zeroCapacity hn, rfl⟩
    · exact .inr rfl
  | digest =>
    obtain ⟨b, t, hb, hn, rfl⟩ := h
    rcases digestOutputs_cases s.inst b t with ⟨k, x, hx, hne, hbefore, h⟩ | ⟨hall, ht, h⟩ | ⟨-, -, -, h⟩ <;> rw [h]
    · exact .inl ⟨_, _, _, _, .wrongWidth hb hx hne hbefore (.inr ⟨rfl, rfl⟩), rfl⟩
    · exact .inl ⟨_, _, _, _, .selectorOutside hb hall hn ht, rfl⟩
    · exact .inr rfl
  | format => exact composite_caused_or_ok (.inl rfl) h
  | hash => exact composite_caused_or_ok (.inr rfl) h

/-- A code on `STATUS` names one status. -/
theorem Status.some_code_inj {e e' : Status} : some e.code = some e'.code ↔ e = e' :=
  ⟨fun h => Status.code_injective (Option.some.inj h), fun h => h ▸ rfl⟩

/-- An error's outputs determine it and its context. -/
theorem raise_inj {e e' : Status} {l r v l' r' v' : Option Nat} :
    raise e l r v = raise e' l' r' v' ↔ e = e' ∧ l = l' ∧ r = r' ∧ v = v' := by
  refine ⟨fun h => ⟨?_, congrArg Outputs.errLen h, congrArg Outputs.errReq h, congrArg Outputs.errAvail h⟩, ?_⟩
  · exact Status.some_code_inj.mp (congrArg Outputs.status h)
  · rintro ⟨rfl, rfl, rfl, rfl⟩
    rfl

/-- An operation that completes ends in an error, with a context, exactly when its operands are a cause of that. -/
theorem answers_eq_raise_iff {i : Instr} {s : State} {o : Outputs} (h : answers i s o) {e : Status} (he : e ≠ .ok)
    (l r v : Option Nat) : o = raise e l r v ↔ Raises s i e l r v := by
  refine ⟨?_, fun hr => hr.answers_eq h⟩
  rintro rfl
  rcases answers_caused_or_ok h with ⟨e', l', r', v', hr, heq⟩ | hok
  · obtain ⟨rfl, rfl, rfl, rfl⟩ := raise_inj.mp heq
    exact hr
  · exact absurd (Status.some_code_inj.mp hok) he

/-- `answers_eq_raise_iff` for the state in which the operation ends. -/
theorem exec_raises_iff {i : Instr} {s t : State} (h : exec i s = .next t) {e : Status} (he : e ≠ .ok)
    (l r v : Option Nat) : t.out = raise e l r v ↔ Raises s i e l r v := by
  obtain ⟨o, rfl, ho⟩ := exec_next h
  exact answers_eq_raise_iff ho he l r v

/-! ### Who raises which error -/

/-- Settles O46: the causes of `AlignmentError` are the two misaligned lengths. -/
theorem alignmentErrorCauses : Obligations.AlignmentErrorCauses := by
  intro i s t h l r v
  refine (exec_raises_iff h (e := .alignment) (by decide) l r v).trans ⟨fun hr => ?_, ?_⟩
  · cases hr with
    | misalignedBytes ha hmod => exact ⟨rfl, .inl ⟨rfl, _, ha, hmod, rfl, rfl⟩⟩
    | misalignedSegment ha hm hw hmod => exact ⟨rfl, .inr ⟨rfl, _, _, ha, hm, hw, hmod, rfl, rfl⟩⟩
  · rintro ⟨rfl, ⟨rfl, a, ha, hmod, rfl, rfl⟩ | ⟨rfl, a, w, ha, hm, hw, hmod, rfl, rfl⟩⟩
    · exact .misalignedBytes ha hmod
    · exact .misalignedSegment ha hm hw hmod

/-- Settles O47: the causes of `CapacityExceededError` are too many blocks and a length of too many blocks. -/
theorem capacityExceededCauses : Obligations.CapacityExceededCauses := by
  intro i s t h l r v
  refine (exec_raises_iff h (e := .capacityExceeded) (by decide) l r v).trans ⟨fun hr => ?_, ?_⟩
  · cases hr with
    | excessBlocks hb hm hw hall hc => exact ⟨rfl, .inl ⟨rfl, _, _, hb, hm, hw, hall, hc, rfl, rfl⟩⟩
    | excessLength hi hn hl hc => exact ⟨rfl, .inr ⟨hi, _, hn, hl, hc, rfl, rfl⟩⟩
  · rintro ⟨rfl, ⟨rfl, b, w, hb, hm, hw, hall, hc, rfl, rfl⟩ | ⟨hi, len, hn, hl, hc, rfl, rfl⟩⟩
    · exact .excessBlocks hb hm hw hall hc
    · exact .excessLength hi hn hl hc

/-- Settles O48: the cause of `LengthOverflowError` is a length that the suffix cannot hold. -/
theorem lengthOverflowCauses : Obligations.LengthOverflowCauses := by
  intro i s t h l r v
  refine (exec_raises_iff h (e := .lengthOverflow) (by decide) l r v).trans ⟨fun hr => ?_, ?_⟩
  · cases hr with
    | overflow hi hn hl => exact ⟨rfl, rfl, hi, _, hn, hl, rfl⟩
  · rintro ⟨rfl, rfl, hi, len, hn, hl, rfl⟩
    exact .overflow hi hn hl

/-- Settles O49: the causes of `PreconditionViolation` are the six of R92. -/
theorem preconditionCauses : Obligations.PreconditionCauses := by
  intro i s t h l r v
  refine (exec_raises_iff h (e := .precondition) (by decide) (some l) (some r) (some v)).trans ⟨fun hr => ?_, ?_⟩
  · cases hr with
    | shortBuffer ha hn hl hs hi => exact .inl ⟨_, _, ha, hn, hl, hs, rfl, rfl, rfl, hi⟩
    | zeroWidthSegment hm ha => exact .inr (.inl ⟨rfl, hm, _, ha, rfl, rfl, rfl⟩)
    | zeroWidthFit hm => exact .inr (.inr (.inl ⟨rfl, hm, rfl, rfl, rfl⟩))
    | wrongWidth hb hx hne hbefore hi =>
      exact .inr (.inr (.inr (.inl ⟨_, _, hb, hx, rfl, hne, hbefore, hi⟩)))
    | selectorOutside hb hall hn ht =>
      exact .inr (.inr (.inr (.inr (.inl ⟨rfl, _, hb, hall, hn, rfl, rfl, ht⟩))))
    | zeroCapacity hn => exact .inr (.inr (.inr (.inr (.inr ⟨rfl, hn, rfl, rfl, rfl⟩))))
  · rintro (⟨a, len, ha, hn, hl, hs, rfl, rfl, rfl, hi⟩ | ⟨rfl, hm, a, ha, rfl, rfl, rfl⟩ | ⟨rfl, hm, rfl, rfl, rfl⟩ |
      ⟨b, x, hb, hx, rfl, hne, hbefore, hi⟩ | ⟨rfl, b, hb, hall, hn, rfl, rfl, ht⟩ | ⟨rfl, hn, rfl, rfl, rfl⟩)
    · exact .shortBuffer ha hn hl hs hi
    · exact .zeroWidthSegment hm ha
    · exact .zeroWidthFit hm
    · exact .wrongWidth hb hx hne hbefore hi
    · exact .selectorOutside hb hall hn ht
    · exact .zeroCapacity hn

/-! ### Which operation reports which status -/

/-- The table of R93 allows every operation `OK`. -/
theorem mayReport_ok (i : Instr) : mayReport i .ok = true := by
  cases i <;> rfl

/-- The table of R93 allows an operation the errors that have a cause in it. -/
theorem Raises.mayReport {i : Instr} {s : State} {e : Status} {l r v : Option Nat} (h : Raises s i e l r v) :
    mayReport i e = true := by
  cases h with
  | misalignedBytes | misalignedSegment | excessBlocks | zeroWidthSegment | zeroWidthFit | selectorOutside
  | zeroCapacity => rfl
  | excessLength hi => rcases hi with rfl | rfl <;> rfl
  | overflow hi => rcases hi with rfl | rfl | rfl <;> rfl
  | shortBuffer _ _ _ _ hi => rcases hi with rfl | ⟨rfl | rfl, -⟩ <;> rfl
  | wrongWidth _ _ _ _ hi => rcases hi with ⟨rfl, -⟩ | ⟨rfl, -⟩ <;> rfl

/-- The operation reports the status on some operands. -/
def Reports (i : Instr) (e : Status) : Prop := ∃ s t : State, exec i s = .next t ∧ t.out.status = some e.code

/-- The machine after reset (capacity 2) with a value on every operand port; the one on `A_BYTES` has no bytes. -/
def State.operands (a : Bits) (b : Blocks) (n m : Nat) : State :=
  { State.reset with aBits := some a, aBytes := some [], aBlocks := some b, n := some n, m := some m }

/-- `DIGEST` accepts one block of 512 bits and the selector 1. -/
theorem reports_digest_ok : Reports .digest .ok := by
  have hall : ∀ x ∈ [zeros 512], x.length = 512 := List.forall_mem_singleton.mpr (zeros_length 512)
  refine ⟨State.operands [] [zeros 512] 1 0, _, exec_digest rfl rfl, ?_⟩
  rw [digestOutputs_of_accepted hall le_rfl le_rfl]
  rfl

/-- `DIGEST` apart, every operation accepts eight bits and no block, with `N = 1` and `M = 8`. -/
theorem reports_ok (i : Instr) : Reports i .ok := by
  cases i with
  | digest => exact reports_digest_ok
  | _ => exact ⟨State.operands (zeros 8) [] 1 8, _, rfl, rfl⟩

/-- One bit is no whole number of bytes, or of chunks of two bits. -/
theorem reports_alignment {i : Instr} (h : mayReport i .alignment = true) : Reports i .alignment := by
  refine ⟨State.operands [true] [] 0 2, ?_⟩
  cases i with
  | bitsToBytes | segment => exact ⟨_, rfl, rfl⟩
  | _ => contradiction

/-- Three blocks, or 1024 bits and their padding, exceed the capacity 2. -/
theorem reports_capacityExceeded {i : Instr} (h : mayReport i .capacityExceeded = true) :
    Reports i .capacityExceeded := by
  refine ⟨State.operands [] [[true], [true], [true]] 1024 1, ?_⟩
  cases i with
  | fit | format | hash => exact ⟨_, rfl, rfl⟩
  | _ => contradiction

/-- The length `2 ^ 64` does not fit the suffix. -/
theorem reports_lengthOverflow {i : Instr} (h : mayReport i .lengthOverflow = true) : Reports i .lengthOverflow := by
  refine ⟨State.operands [] [] (2 ^ 64) 0, ?_⟩
  cases i with
  | pad | format | hash => exact ⟨_, rfl, rfl⟩
  | _ => contradiction

/-- No buffer, no block and width 0 hold nothing for `N = 1`; `MAXLEN` accepts that, and not `N = 0`. -/
theorem reports_precondition {i : Instr} (h : mayReport i .precondition = true) : Reports i .precondition := by
  cases i with
  | maxlen => exact ⟨State.operands [] [] 0 0, _, rfl, rfl⟩
  | pad | segment | fit | digest | format | hash => exact ⟨State.operands [] [] 1 0, _, rfl, rfl⟩
  | _ => contradiction

/-- Every status that the table of R93 allows an operation is reported by it somewhere. -/
theorem reports_of_mayReport {i : Instr} {e : Status} (h : mayReport i e = true) : Reports i e := by
  cases e with
  | ok => exact reports_ok i
  | alignment => exact reports_alignment h
  | capacityExceeded => exact reports_capacityExceeded h
  | lengthOverflow => exact reports_lengthOverflow h
  | precondition => exact reports_precondition h
  | reservedEncoding => cases i <;> contradiction

/-- Settles O44: an operation ends in `OK` or in an error that has a cause, and each entry of the table has its operands. -/
theorem statusTable : Obligations.StatusTable := by
  refine ⟨fun i s t h => ?_, fun i e => reports_of_mayReport⟩
  obtain ⟨o, rfl, ho⟩ := exec_next h
  rcases answers_caused_or_ok ho with ⟨e, l, r, v, hr, rfl⟩ | hok
  · exact ⟨e, hr.mayReport, rfl⟩
  · exact ⟨.ok, mayReport_ok i, hok⟩

/-! ### A result or an error -/

/-- Settles O45: an operation ends in a raised error, or in its success. -/
theorem resultsOrErrorNeverBoth : Obligations.ResultsOrErrorNeverBoth := by
  intro i s t h
  obtain ⟨o, rfl, ho⟩ := exec_next h
  rcases answers_raised_or_success ho with ⟨e, len, r, v, he, rfl⟩ | ⟨⟨hok, hports, hcontext⟩, -⟩
  · exact .inr ⟨fun hok => he (Status.some_code_inj.mp hok), rfl, raise_holdsResult e _ r v, rfl⟩
  · exact .inl ⟨hok, hports, hcontext⟩

/-- The codes 6 and 7 name no status (60_exceptions.md R86). -/
theorem Status.code_toNat_le (e : Status) : e.code.toNat ≤ 5 := by
  cases e <;> decide

/-- Settles O56: legal outputs hold no value, a success, or an error, which leaves no result. -/
theorem invariantExcludesReservedStatus : Obligations.InvariantExcludesReservedStatus := by
  rintro s ⟨hnone | ⟨i, hok, -⟩ | ⟨e, -, herr, hres, -⟩, -⟩ c hc
  · rw [hnone] at hc
    cases hc
  · cases hok.symm.trans hc
    exact ⟨Status.code_toNat_le .ok, fun hne => absurd rfl hne⟩
  · cases herr.symm.trans hc
    exact ⟨Status.code_toNat_le e, fun _ => hres⟩

end Sys2Proof.Machine
end

section
/-! SUPPORT. The statements of 70_reset_and_hazards.md: an operation completes exactly on driven operands, and what presenting
a transaction puts on the input ports. -/

namespace Sys2Proof.Machine

/-! ### Completion -/

/-- An operation that answers has every port driven that it reads: one or two of them (30_encoding.md R49). -/
theorem presents_of_answers {i : Instr} {s : State} {o : Outputs} (h : answers i s o) : s.presents i := by
  cases i with
  | bytesToBits | bitsToBytes | tblock | capacity | maxlen =>
    obtain ⟨_, hport, -⟩ := h
    intro p
    cases p <;> simp [readsPort, State.drives, hport]
  | pad | segment | fit | digest | format | hash =>
    obtain ⟨_, _, hport, hport', -⟩ := h
    intro p
    cases p <;> simp [readsPort, State.drives, hport, hport']

/-- Settles O51: an operation that goes on has its ports driven, and one that faults names a port that is not. -/
theorem execCompletesExactlyWhenOperandsDriven : Obligations.ExecCompletesExactlyWhenOperandsDriven := by
  intro i s
  cases h : exec i s with
  | next t =>
    obtain ⟨o, rfl, ho⟩ := exec_next h
    exact ⟨fun _ => ⟨o, rfl⟩, fun hn => absurd (presents_of_answers ho) hn⟩
  | fault f =>
    obtain ⟨p, rfl, hreads, hdrives⟩ := exec_fault h
    exact ⟨fun hp => absurd (hp p hreads) (by simp [hdrives]), fun _ => ⟨p, hreads, hdrives, rfl⟩⟩
  | refused r => exact absurd h (exec_ne_refused i s r)

/-! ### Presenting -/

section driven
variable {α β : Type} {f : α → Except Fault β} {arg : Option α} {port : Option β} (h : driven f arg = .ok port)
include h

/-- A port that the host does not drive holds no value afterwards (log entry 9). -/
theorem driven_ok_of_none (harg : arg = none) : port = none := by
  subst harg
  cases h
  rfl

/-- A port that the host drives with an argument of a known value holds that value. -/
theorem driven_ok_of_value {a : α} {b : β} (hf : f a = .ok b) (harg : arg = some a) : port = some b := by
  subst harg
  obtain ⟨b', hb', rfl⟩ := driven_some_ok.mp h
  cases hf.symm.trans hb'
  rfl

/-- A port on which the host copies a result port has that port's content. -/
theorem driven_ok_of_copy {a : α} {r : ResultPort} {v : Option β} (hf : f a = copyResult r v) (harg : arg = some a) :
    port = v := by
  subst harg
  obtain ⟨b, hb, rfl⟩ := driven_some_ok.mp h
  exact (copyResult_ok.mp (hf.symm.trans hb)).symm

end driven

/-- Settles O5: port by port, what each kind of argument gives. -/
theorem presentDrivesInputPorts : Obligations.PresentDrivesInputPorts := by
  intro t s s' h
  obtain ⟨hinst, hout, hhost, hcmd, hbits, hbytes, hblocks, hn, hm⟩ := present_ok h
  exact ⟨hcmd, hinst, hout, hhost,
    driven_ok_of_none hbits, fun _ => driven_ok_of_value hbits rfl, driven_ok_of_copy hbits rfl, driven_ok_of_copy hbits rfl,
    driven_ok_of_none hbytes, fun _ => driven_ok_of_value hbytes rfl, driven_ok_of_copy hbytes rfl,
    driven_ok_of_none hblocks, fun _ => driven_ok_of_value hblocks rfl, driven_ok_of_copy hblocks rfl,
    driven_ok_of_none hn, fun _ => driven_ok_of_value hn rfl, driven_ok_of_copy hn rfl, driven_ok_of_copy hn rfl,
    driven_ok_of_none hm, fun _ => driven_ok_of_value hm rfl, driven_ok_of_copy hm rfl, driven_ok_of_copy hm rfl⟩

end Sys2Proof.Machine
end
